-- ==== Sys2Proof/Word.lean ====
section
/-! DEFINITION. The word types of the DCT2Q core: 64-bit register patterns, 32-bit codewords and command
halves, and bytes (10_state.md R46, R54, R55). -/

namespace Sys2Proof

/-- A 64-bit register pattern, with no type tag (10_state.md R47). -/
abbrev Word := BitVec 64

/-- A 32-bit value: CMDLAST, CMDCNT, FINFO.CMDWORD, a codeword. -/
abbrev Half := BitVec 32

/-- A byte: a fault code, a detail byte, a register index of the port, an opcode. -/
abbrev Byte := BitVec 8

end Sys2Proof
end

