-- ==== Sys2Proof/Config.lean ====
section
/-! DEFINITION. The open parameters of 00_scope.md R11, as constants with no body: nothing in Lean can
evaluate them, so whatever is proved holds for every value they may take. -/

namespace Sys2Proof.Config

/-- One less than `LAT(op)`, free for every instance, by its number, and every opcode, the reserved ones included
(00_scope.md R11; 45_control.md R261; log 3, log 19). -/
opaque latMinusOne : ℕ → Byte → ℕ

/-- `LAT(op)`, "fixed per instance and opcode": the clock edges from a command's acceptance to its completion in an
instance, finite and at least 1 (00_scope.md R11; 45_control.md R261). -/
def lat (instNo : ℕ) (opc : Byte) : ℕ := latMinusOne instNo opc + 1

/-- A free non-decreasing curve on the rationals, from which `CHROMA_INDEX` is cut (00_scope.md R11, R12; log 4). One
table for all instances of a system (DEDUCED, log 4; unsafe). -/
opaque chromaCurve : ℚ →o ℚ

/-- A finite binary64 value by its fields: any sign, any exponent field but 2047, any fraction
(00_scope.md R16). -/
structure FiniteF64 where
  sign : Bool
  exponent : Fin 2047
  fraction : BitVec 52
  deriving DecidableEq, Repr, Inhabited

/-- A free finite binary64 value for each chroma index 0..15: `CHROMA_OF` (00_scope.md R11, R12; log 4). One
table for all instances of a system (DEDUCED, log 4; unsafe). -/
opaque chromaValue : BitVec 4 → FiniteF64

end Sys2Proof.Config
end

