-- ==== Sys2Proof/Syntax.lean ====
section
/-! DEFINITION. The commands of the block, one constructor per row of spec/opcode_table.json
(30_encoding.md R114). Data operands are implicit (R113), so a constructor carries only the fields W and L
of the command word, as the unsigned integers R112 reads from it. -/

namespace Sys2Proof

inductive Instr where
  /-- 0x00, 45_control.md R265 -/
  | nop
  /-- 0x01, 40_converter.md R142 -/
  | rgb2ypp
  /-- 0x02, 40_converter.md R144 -/
  | ypp2rgb
  /-- 0x08, 41_codeword.md R162 -/
  | pack
  /-- 0x09, 41_codeword.md R163 -/
  | unpack
  /-- 0x10, 42_bitfield.md R184 -/
  | fitsu (w : ℕ)
  /-- 0x11, 42_bitfield.md R185 -/
  | fitss (w : ℕ)
  /-- 0x12, 42_bitfield.md R186 -/
  | getu (w l : ℕ)
  /-- 0x13, 42_bitfield.md R187 -/
  | gets (w l : ℕ)
  /-- 0x14, 42_bitfield.md R188 -/
  | newu (w l : ℕ)
  /-- 0x15, 42_bitfield.md R189 -/
  | news (w l : ℕ)
  /-- 0x16, 42_bitfield.md R190 -/
  | shl
  /-- 0x17, 42_bitfield.md R191 -/
  | shr
  /-- 0x18, 42_bitfield.md R192 -/
  | sar
  /-- 0x20, 43_dct_quant.md R212 -/
  | dct
  /-- 0x21, 43_dct_quant.md R213 -/
  | idct
  /-- 0x22, 43_dct_quant.md R214 -/
  | avg4
  /-- 0x23, 43_dct_quant.md R216 -/
  | quant
  /-- 0x24, 43_dct_quant.md R217 -/
  | dequant
  /-- 0x28, 44_scaler.md R241 -/
  | sqrnd
  /-- 0x29, 44_scaler.md R242 -/
  | sqclamp (w : ℕ)
  /-- 0x2A, 44_scaler.md R243 -/
  | sdq
  /-- 0x2B, 44_scaler.md R244 -/
  | sattrunc
  deriving DecidableEq, Repr

end Sys2Proof
end

