-- ==== Sys2Proof/WellFormed.lean ====
section
/-! DEFINITION. Which instructions a command word can spell: W and L are 7-bit fields, 0..127
(30_encoding.md R111, R112). Widths and offsets above 64 are encodable on purpose (R112). -/

namespace Sys2Proof

/-- A value that a 7-bit field of the command word holds (30_encoding.md R111, R119). -/
def fieldFits (n : ℕ) : Bool := decide (n < 128)

/-- The instruction's fields fit the command word. -/
def Instr.wellFormed : Instr → Bool
  | .fitsu w | .fitss w | .sqclamp w => fieldFits w
  | .getu w l | .gets w l | .newu w l | .news w l => fieldFits w && fieldFits l
  | .nop | .rgb2ypp | .ypp2rgb | .pack | .unpack | .shl | .shr | .sar | .dct | .idct | .avg4
  | .quant | .dequant | .sqrnd | .sdq | .sattrunc => true

end Sys2Proof
end

