-- ==== Sys2Proof/Decode.lean ====
section
/-! DEFINITION. Decode of the 64-bit command word (30_encoding.md R110 to R118), and after it the encoder and
the assembler's command line (R119). Decode is total: a word names one command or is rejected by name. -/

namespace Sys2Proof

/-- One row of the opcode map (30_encoding.md R114): the mnemonic, OPC, whether the command takes W and L, and
the command it spells. -/
structure OpRow where
  mnemonic : String
  opc : Byte
  takesW : Bool
  takesL : Bool
  make : ℕ → ℕ → Instr

/-- The opcode map of 30_encoding.md R114, with the field use of R115, in the table's order. -/
def opTable : List OpRow :=
  [ ⟨"NOP", 0x00, false, false, fun _ _ => .nop⟩,
    ⟨"RGB2YPP", 0x01, false, false, fun _ _ => .rgb2ypp⟩,
    ⟨"YPP2RGB", 0x02, false, false, fun _ _ => .ypp2rgb⟩,
    ⟨"PACK", 0x08, false, false, fun _ _ => .pack⟩,
    ⟨"UNPACK", 0x09, false, false, fun _ _ => .unpack⟩,
    ⟨"FITSU", 0x10, true, false, fun w _ => .fitsu w⟩,
    ⟨"FITSS", 0x11, true, false, fun w _ => .fitss w⟩,
    ⟨"GETU", 0x12, true, true, fun w l => .getu w l⟩,
    ⟨"GETS", 0x13, true, true, fun w l => .gets w l⟩,
    ⟨"NEWU", 0x14, true, true, fun w l => .newu w l⟩,
    ⟨"NEWS", 0x15, true, true, fun w l => .news w l⟩,
    ⟨"SHL", 0x16, false, false, fun _ _ => .shl⟩,
    ⟨"SHR", 0x17, false, false, fun _ _ => .shr⟩,
    ⟨"SAR", 0x18, false, false, fun _ _ => .sar⟩,
    ⟨"DCT", 0x20, false, false, fun _ _ => .dct⟩,
    ⟨"IDCT", 0x21, false, false, fun _ _ => .idct⟩,
    ⟨"AVG4", 0x22, false, false, fun _ _ => .avg4⟩,
    ⟨"QUANT", 0x23, false, false, fun _ _ => .quant⟩,
    ⟨"DEQUANT", 0x24, false, false, fun _ _ => .dequant⟩,
    ⟨"SQRND", 0x28, false, false, fun _ _ => .sqrnd⟩,
    ⟨"SQCLAMP", 0x29, true, false, fun w _ => .sqclamp w⟩,
    ⟨"SDQ", 0x2A, false, false, fun _ _ => .sdq⟩,
    ⟨"SATTRUNC", 0x2B, false, false, fun _ _ => .sattrunc⟩ ]

/-- Why a command word names no command (30_encoding.md R116, 60_exceptions.md R271). -/
inductive DecodeError where
  /-- OPC is not in the table: ILLEGAL(0x00). -/
  | reservedOpcode
  /-- Bit 15 or a bit of 63:23 is 1: ILLEGAL(0x01). -/
  | reservedBit
  /-- W or L is nonzero on an opcode that does not take it: ILLEGAL(0x02). -/
  | unusedField
  deriving DecidableEq, Repr

/-- The detail byte of ILLEGAL (60_exceptions.md R271). -/
def DecodeError.detail : DecodeError → Byte
  | .reservedOpcode => 0x00
  | .reservedBit => 0x01
  | .unusedField => 0x02

/-- `cmd[7:0]` (30_encoding.md R111). -/
def opcField (cmd : Word) : Byte := cmd.extractLsb' 0 8

/-- `W = zext(cmd[14:8])` (30_encoding.md R112). -/
def wField (cmd : Word) : ℕ := (cmd.extractLsb' 8 7).toNat

/-- `L = zext(cmd[22:16])` (30_encoding.md R112). -/
def lField (cmd : Word) : ℕ := (cmd.extractLsb' 16 7).toNat

/-- Bit 15 or a bit of 63:23 is set (30_encoding.md R111). -/
def reservedBitSet (cmd : Word) : Bool := cmd.getLsbD 15 || cmd.extractLsb' 23 41 != 0

/-- The row of the opcode map for an OPC value. -/
def findRow (opc : Byte) : Option OpRow := opTable.find? fun r => r.opc == opc

/-- Decode, with its checks in the order of 30_encoding.md R116. -/
def decode (cmd : Word) : Except DecodeError Instr :=
  match findRow (opcField cmd) with
  | none => .error .reservedOpcode
  | some row =>
    if reservedBitSet cmd then .error .reservedBit
    else if (wField cmd != 0 && !row.takesW) || (lField cmd != 0 && !row.takesL) then .error .unusedField
    else .ok (row.make (wField cmd) (lField cmd))

/-- The instruction a table word spells: the command word is one 64-bit register write, so its bits are the
number `w`, cut to the `nbits` bits the table gives the row, every bit above them 0; a number above 64 bits is no
command word. -/
def decodeTableWord (nbits w : ℕ) : Option Instr :=
  if w % 2 ^ nbits < 2 ^ 64 then (decode (BitVec.ofNat 64 (w % 2 ^ nbits))).toOption else none

/-- The OPC of an instruction (30_encoding.md R114). -/
def Instr.opc : Instr → Byte
  | .nop => 0x00
  | .rgb2ypp => 0x01
  | .ypp2rgb => 0x02
  | .pack => 0x08
  | .unpack => 0x09
  | .fitsu _ => 0x10
  | .fitss _ => 0x11
  | .getu _ _ => 0x12
  | .gets _ _ => 0x13
  | .newu _ _ => 0x14
  | .news _ _ => 0x15
  | .shl => 0x16
  | .shr => 0x17
  | .sar => 0x18
  | .dct => 0x20
  | .idct => 0x21
  | .avg4 => 0x22
  | .quant => 0x23
  | .dequant => 0x24
  | .sqrnd => 0x28
  | .sqclamp _ => 0x29
  | .sdq => 0x2A
  | .sattrunc => 0x2B

/-- The W of an instruction, 0 where the command takes none (30_encoding.md R115). -/
def Instr.w : Instr → ℕ
  | .fitsu w | .fitss w | .sqclamp w | .getu w _ | .gets w _ | .newu w _ | .news w _ => w
  | .nop | .rgb2ypp | .ypp2rgb | .pack | .unpack | .shl | .shr | .sar | .dct | .idct | .avg4
  | .quant | .dequant | .sqrnd | .sdq | .sattrunc => 0

/-- The L of an instruction, 0 where the command takes none (30_encoding.md R115). -/
def Instr.l : Instr → ℕ
  | .getu _ l | .gets _ l | .newu _ l | .news _ l => l
  | .fitsu _ | .fitss _ | .sqclamp _ | .nop | .rgb2ypp | .ypp2rgb | .pack | .unpack | .shl | .shr | .sar
  | .dct | .idct | .avg4 | .quant | .dequant | .sqrnd | .sdq | .sattrunc => 0

/-- `cmd = (L << 16) | (W << 8) | OPC` (30_encoding.md R119). -/
def encode (i : Instr) : Word :=
  (BitVec.ofNat 64 i.l <<< 16) ||| (BitVec.ofNat 64 i.w <<< 8) ||| i.opc.setWidth 64

/-- The assembler on one command line: a mnemonic and its decimal operands. It rejects an unknown mnemonic, W or L
outside 0..127, and operands on a command that does not take them (30_encoding.md R119). -/
def assemble (mnemonic : String) (operands : List ℕ) : Option Word :=
  match opTable.find? fun r => r.mnemonic == mnemonic with
  | none => none
  | some row =>
    match row.takesW, row.takesL, operands with
    | false, false, [] => some (encode (row.make 0 0))
    | true, false, [w] => if fieldFits w then some (encode (row.make w 0)) else none
    | true, true, [w, l] => if fieldFits w && fieldFits l then some (encode (row.make w l)) else none
    | _, _, _ => none

end Sys2Proof
end

