-- ==== Sys2Proof/Machine/State.lean ====
section
/-! DEFINITION. The state of one block instance: the tuple of 10_state.md R62, and beside it the pins of
10_state.md R40 as plain data. -/

namespace Sys2Proof.Machine

/-- The data registers X0..X7, 64 bits each (10_state.md R46). -/
structure Regs where
  x0 : Word
  x1 : Word
  x2 : Word
  x3 : Word
  x4 : Word
  x5 : Word
  x6 : Word
  x7 : Word
  deriving DecidableEq, Repr

/-- The fault information register (10_state.md R55): CMDWORD in bits 31:0, DETAIL in bits 39:32. -/
structure FInfo where
  cmdWord : Half
  detail : Byte
  deriving DecidableEq, Repr

/-- A command in flight (10_state.md R58): the whole 64-bit command word and the clock edges left. -/
structure InFlight where
  cmd : Word
  left : ℕ
  deriving DecidableEq, Repr

/-- The fault codes of 60_exceptions.md R271 to R277. -/
inductive FaultKind where
  | illegal
  | contract
  | overflow
  | nonfinite
  | divzero
  | fprange
  | busy
  deriving DecidableEq, Repr

/-- `raise F(d)`: a fault code and its detail byte (00_scope.md R24). -/
structure Raise where
  kind : FaultKind
  detail : Byte
  deriving DecidableEq, Repr

/-- The pins of one clock cycle (10_state.md R40 to R43): `rstN` is rst_n, the h_ fields are the host's drive of
the register port, and `grant` is the block's choice to raise h_ready in this cycle, which R43 leaves open
(DESIGN CHOICE, log 2: held here as data, so every choice is a state; safe). -/
structure PortCycle where
  rstN : Bool
  hValid : Bool
  grant : Bool
  hWe : Bool
  hIdx : Byte
  hWdata : Word
  deriving DecidableEq, Repr

/-- A cycle with rst_n = 1 and no access: what the pins do after the last listed cycle (DESIGN CHOICE, log 1; safe). -/
def PortCycle.idle : PortCycle := ⟨true, false, true, false, 0, 0⟩

/-- The state of one block instance. -/
structure State where
  /-- X0..X7 (10_state.md R46) -/
  x : Regs
  /-- CTRL.FIE (10_state.md R51) -/
  fie : Bool
  /-- STATUS.FAULT, 0 = none (10_state.md R53) -/
  fault : Byte
  /-- FINFO (10_state.md R55) -/
  finfo : FInfo
  /-- CMDCNT (10_state.md R56) -/
  cmdCnt : Half
  /-- CMDLAST (10_state.md R54) -/
  cmdLast : Half
  /-- INFLIGHT (10_state.md R58) -/
  inflight : Option InFlight
  /-- The pins of the cycles to come, the next one first (the model's own field; DESIGN CHOICE, log 1). -/
  port : List PortCycle
  /-- The word h_rdata carried in the cycle just performed, none where no read was performed (the model's own
  field; 10_state.md R43; DESIGN CHOICE, log 5). -/
  hRdata : Option Word
  /-- Which instance of its system this block is: what its latencies depend on (the model's own field, which no step
  changes; 00_scope.md R11; DESIGN CHOICE, log 19). -/
  instNo : ℕ
  deriving DecidableEq, Repr

/-- Why a step stops with a fault: never. Every fault of the block is latched in STATUS.FAULT and is a NEXT state
(60_exceptions.md R270, R280), and every word and every access has a defined effect (00_scope.md R8; 20_memory.md R82),
so no meaning raises one (log 12; safe). -/
inductive Fault where
  deriving DecidableEq, Repr

/-- Why a step is refused. -/
inductive Refusal where
  /-- Raised only by an arm of `exec` whose instruction has no meaning yet; no arm is such an arm (safe). -/
  | notModelled (mnemonic : String)
  deriving DecidableEq, Repr

/-- X0..X7 after reset (70_reset_and_hazards.md R311). -/
def Regs.zero : Regs := ⟨0, 0, 0, 0, 0, 0, 0, 0⟩

/-- The machine after reset (70_reset_and_hazards.md R311); no pin activity is pending (log 1), no read has been
performed (log 5), and it is the first instance of its system (log 19). -/
def State.reset : State where
  x := Regs.zero
  fie := false
  fault := 0
  finfo := ⟨0, 0⟩
  cmdCnt := 0
  cmdLast := 0
  inflight := none
  port := []
  hRdata := none
  instNo := 0

end Sys2Proof.Machine
end

