-- ==== Sys2Proof/Machine/Numeric.lean ====
section
/-! DEFINITION. The pseudocode primitives of 00_scope.md R15 to R23: the integer and binary64 views of a pattern,
exact rationals and their three roundings, clamp, mask and the shifts; and the two chroma functions (R12). -/

namespace Sys2Proof.Machine

/-- `u64(p)` (00_scope.md R15). -/
def u64 (p : Word) : ℕ := p.toNat

/-- `i64(p)` (00_scope.md R15). -/
def i64 (p : Word) : ℤ := p.toInt

/-- `tc64(n)`: the pattern of n mod 2^64 (00_scope.md R15). -/
def tc64 (n : ℤ) : Word := BitVec.ofInt 64 n

/-- `2^n` as an exact rational, for a negative n too. (Irreducible so that elaboration never computes 2^1074; the kernel
still evaluates it.) -/
@[irreducible] def pow2 : ℤ → ℚ
  | .ofNat n => ((2 ^ n : ℕ) : ℚ)
  | .negSucc n => 1 / ((2 ^ (n + 1) : ℕ) : ℚ)

/-- `e = p[62:52]` (00_scope.md R16). -/
def expField (p : Word) : ℕ := (p.extractLsb' 52 11).toNat

/-- `f = p[51:0]` (00_scope.md R16). -/
def fracField (p : Word) : ℕ := (p.extractLsb' 0 52).toNat

/-- The pattern is a finite binary64 value: its exponent field is not all ones (00_scope.md R16). -/
def isFinite (p : Word) : Bool := expField p != 2047

/-- The exact rational a finite pattern denotes (00_scope.md R16); -0 and +0 both denote 0. -/
def f64Value (p : Word) : ℚ :=
  let sign : ℚ := if p.msb then -1 else 1
  if expField p = 0 then sign * pow2 (-1074) * fracField p
  else sign * pow2 (expField p - 1023) * (1 + fracField p / pow2 52)

/-- `roundHA(q)`: to an integer, ties away from zero (00_scope.md R19). -/
def roundHA (q : ℚ) : ℤ := if 0 ≤ q then ⌊q + 1 / 2⌋ else -⌊-q + 1 / 2⌋

/-- `trunc(q)`: toward zero (00_scope.md R20). -/
def trunc (q : ℚ) : ℤ := if 0 ≤ q then ⌊q⌋ else -⌊-q⌋

/-- Round to the nearest integer, ties to the even one: the rounding of a fraction field (00_scope.md R18). -/
def roundHalfEven (q : ℚ) : ℤ :=
  let k := ⌊q⌋
  if q - k < 1 / 2 then k else if 1 / 2 < q - k then k + 1 else if k % 2 = 0 then k else k + 1

/-- The e with 2^e <= m < 2^(e+1), for a positive m. -/
def ilog2 (m : ℚ) : ℤ :=
  let e : ℤ := (m.num.natAbs.log2 : ℤ) - (m.den.log2 : ℤ)
  if m < pow2 e then e - 1 else e

/-- The spacing exponent of the binary64 values around a positive m: that of its binade, and that of the subnormals
below 2^-1022 (00_scope.md R16, R18). -/
def ulpExp (m : ℚ) : ℤ := max (ilog2 m) (-1022) - 52

/-- The pattern, sign bit aside, of the binary64 value nearest to a positive m below the overflow threshold, ties to
the even fraction (00_scope.md R18; DEDUCED, log 17: computed from the spacing around m). The sum carries into the
exponent where rounding reaches the next binade. -/
def rnd64Magnitude (m : ℚ) : ℕ :=
  ((ulpExp m + 1074) * 2 ^ 52 + roundHalfEven (m / pow2 (ulpExp m))).toNat

/-- The pattern `rnd64` gives for a q within range. A zero result is +0, from a negative q too (00_scope.md R18;
92_eei_decisions.md D4 "a zero result is +0"; 43_dct_quant.md R212; DEDUCED, log 6: unsafe). -/
def rnd64Bits (q : ℚ) : Word :=
  if q = 0 then 0
  else
    let m := rnd64Magnitude |q|
    if m = 0 then 0 else if q < 0 then BitVec.ofNat 64 (2 ^ 63 + m) else BitVec.ofNat 64 m

/-- The threshold 2^1024 - 2^970, at and above which a magnitude is not representable (00_scope.md R18). -/
def rnd64Limit : ℚ := pow2 1024 - pow2 970

/-- `clamp(v, lo, hi)` (00_scope.md R21). -/
def clamp {α : Type} [LT α] [DecidableLT α] (v lo hi : α) : α :=
  if v < lo then lo else if hi < v then hi else v

/-- `mask(w) = 2^w - 1` (00_scope.md R22). -/
def mask (w : ℕ) : ℕ := 2 ^ w - 1

/-- `shl64(v, n)` (00_scope.md R23). -/
def shl64 (v : Word) (n : ℕ) : Word := if 64 ≤ n then 0 else tc64 (u64 v * 2 ^ n % 2 ^ 64 : ℕ)

/-- `lshr64(v, n)` (00_scope.md R23). -/
def lshr64 (v : Word) (n : ℕ) : Word := if 64 ≤ n then 0 else tc64 (u64 v / 2 ^ n : ℕ)

/-- `ashr64(v, n)`: floor division by 2^n, and the sign's copies from 64 on (00_scope.md R23). -/
def ashr64 (v : Word) (n : ℕ) : Word :=
  if 64 ≤ n then (if v.msb then BitVec.allOnes 64 else 0) else tc64 (i64 v / 2 ^ n)

/-- `CHROMA_INDEX`: total, pure, non-decreasing, with results 0..2^64-1 and nothing else known (00_scope.md R11,
R12). Every such function arises from some `Config.chromaCurve` (log 4; safe). -/
def chromaIndex (v : ℚ) : ℕ := (clamp ⌊Config.chromaCurve v⌋ 0 (2 ^ 64 - 1)).toNat

/-- The binary64 pattern of a finite value (00_scope.md R16). -/
def finitePattern (v : Config.FiniteF64) : Word :=
  BitVec.ofBool v.sign ++ BitVec.ofNat 11 v.exponent.val ++ v.fraction

/-- `CHROMA_OF`: total on 0..15, pure, each result a finite binary64 pattern (00_scope.md R11, R12; log 4; safe). -/
def chromaOf (i : BitVec 4) : Word := finitePattern (Config.chromaValue i)

end Sys2Proof.Machine
end

