-- ==== Sys2Proof/Machine/Operands.lean ====
section
/-! DEFINITION. Reading operands and making results, with the faults that reading or rounding raises
(00_scope.md R14, R18, R24). A command's rule is a function of the register file to new register values or a
raised fault. -/

namespace Sys2Proof.Machine

/-- What a command's rule answers: a value, or `raise F(d)` (00_scope.md R24). -/
abbrev Rule (α : Type) := Except Raise α

/-- `if not ok then raise F(d)`. -/
def require (ok : Bool) (kind : FaultKind) (detail : Byte) : Rule Unit :=
  if ok then .ok () else .error ⟨kind, detail⟩

/-- `x[i]` as a read (00_scope.md R14). -/
def Regs.get (r : Regs) (i : Fin 8) : Word :=
  match i with
  | 0 => r.x0
  | 1 => r.x1
  | 2 => r.x2
  | 3 => r.x3
  | 4 => r.x4
  | 5 => r.x5
  | 6 => r.x6
  | 7 => r.x7

/-- `x[i] <- v` (00_scope.md R14). -/
def Regs.set (r : Regs) (i : Fin 8) (v : Word) : Regs :=
  match i with
  | 0 => { r with x0 := v }
  | 1 => { r with x1 := v }
  | 2 => { r with x2 := v }
  | 3 => { r with x3 := v }
  | 4 => { r with x4 := v }
  | 5 => { r with x5 := v }
  | 6 => { r with x6 := v }
  | 7 => { r with x7 := v }

/-- A register index as a detail byte (60_exceptions.md R273 to R276). -/
def regDetail (i : Fin 8) : Byte := BitVec.ofNat 8 i.val

/-- `f64(x[i])` as an operand: a non-finite pattern raises NONFINITE(i) (00_scope.md R24; 60_exceptions.md R274). -/
def readF64 (r : Regs) (i : Fin 8) : Rule ℚ :=
  if isFinite (r.get i) then .ok (f64Value (r.get i)) else .error ⟨.nonfinite, regDetail i⟩

/-- `x[i] <- rnd64(q)`'s value: FPRANGE(i) where q is not representable (00_scope.md R18; 60_exceptions.md R276). -/
def rnd64 (i : Fin 8) (q : ℚ) : Rule Word :=
  if rnd64Limit ≤ |q| then .error ⟨.fprange, regDetail i⟩ else .ok (rnd64Bits q)

end Sys2Proof.Machine
end

