-- ==== Sys2Proof/Machine/Flags.lean ====
section
/-! DEFINITION. The status bits and the words of the control and status registers. The block has no arithmetic
flags (10_state.md R49): a predicate's result is a register value. -/

namespace Sys2Proof.Machine

/-- A predicate's result in X2, 1 or 0 (10_state.md R49). -/
def boolWord (b : Bool) : Word := if b then 1 else 0

/-- The code of a fault as STATUS.FAULT holds it (60_exceptions.md R278). -/
def FaultKind.code : FaultKind → Byte
  | .illegal => 1
  | .contract => 2
  | .overflow => 3
  | .nonfinite => 4
  | .divzero => 5
  | .fprange => 6
  | .busy => 7

/-- STATUS.BUSY: 1 exactly when INFLIGHT is non-empty (10_state.md R58). -/
def State.busy (s : State) : Bool := s.inflight.isSome

/-- `STATUS.FAULT != 0` (00_scope.md R26). -/
def State.faulted (s : State) : Bool := s.fault != 0

/-- STATUS.IRQ: `CTRL.FIE AND (STATUS.FAULT != 0)` (10_state.md R44, R53; 60_exceptions.md R285). -/
def State.irq (s : State) : Bool := s.fie && s.faulted

/-- The irq pin in a cycle with this rst_n: 0 while rst_n = 0 (10_state.md R42, R44; 60_exceptions.md R286). -/
def State.irqPin (s : State) (rstN : Bool) : Bool := rstN && s.irq

/-- The value of the h_rdata pin after a cycle: the word read, and any value where no read was performed
(70_reset_and_hazards.md R311): `free` is an argument that nothing constrains (log 5). -/
def State.hRdataPin (s : State) (free : Word) : Word := s.hRdata.getD free

/-- The h_ready pin of a cycle: the block's choice, and 0 while rst_n = 0 (10_state.md R42, R43). -/
def PortCycle.hReady (c : PortCycle) : Bool := c.rstN && c.grant

/-- ID (10_state.md R50). -/
def idValue : Word := 0x0000000144435432

/-- CTRL as read: FIE in bit 0, SRST reads 0 (10_state.md R51). -/
def State.ctrlWord (s : State) : Word := boolWord s.fie

/-- STATUS as read: FAULT in 15:8, IRQ in bit 1, BUSY in bit 0, the rest 0 (10_state.md R53). -/
def State.statusWord (s : State) : Word :=
  (s.fault.setWidth 64 <<< 8) ||| (boolWord s.irq <<< 1) ||| boolWord s.busy

/-- FINFO as read: DETAIL in 39:32, CMDWORD in 31:0, the rest 0 (10_state.md R55). -/
def State.finfoWord (s : State) : Word :=
  (s.finfo.detail.setWidth 64 <<< 32) ||| s.finfo.cmdWord.setWidth 64

end Sys2Proof.Machine
end

