-- ==== Sys2Proof/Machine/Ops.lean ====
section
/-! DEFINITION. The named operations on the state that commands and accesses share: completing a command, latching
a fault (the block's exception entry) and, beside it, the reset that alone leaves the faulted state. -/

namespace Sys2Proof.Machine

/-- The low 32 bits of a 64-bit word: what CMDLAST and FINFO.CMDWORD keep (10_state.md R54, R55). -/
def lowHalf (v : Word) : Half := v.extractLsb' 0 32

/-- The low 32 bits of the in-flight command. With nothing in flight, CMDLAST, which they equal whenever a command
is in flight (10_state.md R58; DESIGN CHOICE for a state no completion starts from, log 7; safe). -/
def State.commandHalf (s : State) : Half :=
  match s.inflight with
  | some f => lowHalf f.cmd
  | none => s.cmdLast

/-- Latching a fault, the entry into the faulted state (60_exceptions.md R280; 45_control.md R263): STATUS.FAULT,
FINFO.DETAIL and FINFO.CMDWORD are saved and INFLIGHT becomes empty; X0..X7, CTRL, CMDCNT and CMDLAST do not change, and
control is transferred nowhere. -/
def latchFault (kind : FaultKind) (detail : Byte) (s : State) : State :=
  { s with fault := kind.code, finfo := ⟨s.commandHalf, detail⟩, inflight := none }

/-- The effect of reset on the registers, hardware and soft alike (70_reset_and_hazards.md R310, R311, R312): the
only way out of the faulted state (60_exceptions.md R283; there is no return from a fault). What the pins do and
did, and which instance this is, are no registers (log 18, log 19). -/
def resetRegisters (s : State) : State :=
  { State.reset with port := s.port, hRdata := s.hRdata, instNo := s.instNo }

/-- Completion without a fault: the results, CMDCNT + 1 mod 2^32, INFLIGHT empty, all at once (45_control.md R262). -/
def complete (results : Regs) (s : State) : State :=
  { s with x := results, cmdCnt := s.cmdCnt + 1, inflight := none }

/-- Completion of a command whose rule answers `r` (45_control.md R262, R263). -/
def finish (r : Rule Regs) (s : State) : Host.Outcome State Fault Refusal :=
  match r with
  | .ok results => .next (complete results s)
  | .error f => .next (latchFault f.kind f.detail s)

end Sys2Proof.Machine
end

