-- ==== Sys2Proof/Machine/Port.lean ====
section
/-! DEFINITION. The register port: RegRead, RegWrite, CommandWrite, BusyFault and the access of one cycle
(20_memory.md R80 to R83; 45_control.md R260, R264; 60_exceptions.md R277; 10_state.md R42, R43). -/

namespace Sys2Proof.Machine

/-- The data register at a port index 0x08..0x0F (20_memory.md R80). -/
def dataIndex (idx : Byte) : Option (Fin 8) :=
  if idx.toNat / 8 = 1 then some (Fin.ofNat 8 (idx.toNat % 8)) else none

/-- `RegRead(idx)`: no side effect; reserved indices read 0 (20_memory.md R81; 10_state.md R50 to R57). -/
def regRead (idx : Byte) (s : State) : Word :=
  match dataIndex idx with
  | some i => s.x.get i
  | none =>
    if idx = 0x00 then idValue
    else if idx = 0x01 then s.ctrlWord
    else if idx = 0x02 then s.statusWord
    else if idx = 0x03 then s.cmdLast.setWidth 64
    else if idx = 0x04 then s.finfoWord
    else if idx = 0x05 then s.cmdCnt.setWidth 64
    else 0

/-- `BusyFault(idx)`: the in-flight command is discarded and the write has no other effect (60_exceptions.md R277). -/
def busyFault (idx : Byte) (s : State) : State := latchFault .busy idx s

/-- `CommandWrite(v)`: ignored while faulted, BUSY while a command is in flight, else accepted unchecked
(45_control.md R260). -/
def commandWrite (v : Word) (s : State) : State :=
  if s.faulted then s
  else if s.busy then busyFault 0x03 s
  else { s with inflight := some ⟨v, Config.lat s.instNo (opcField v)⟩, cmdLast := lowHalf v }

/-- A write to CTRL, performed in every state: FIE from bit 0, then the soft reset if bit 1 is 1 (10_state.md R51, R52;
45_control.md R266). -/
def ctrlWrite (v : Word) (s : State) : State :=
  let s := { s with fie := v.getLsbD 0 }
  if v.getLsbD 1 then resetRegisters s else s

/-- A write to a data register: BUSY while a command is in flight, else performed, while faulted too (20_memory.md R82). -/
def dataWrite (idx : Byte) (i : Fin 8) (v : Word) (s : State) : State :=
  if s.busy then busyFault idx s else { s with x := s.x.set i v }

/-- `RegWrite(idx, v)`: read-only and reserved indices ignore the write (20_memory.md R82; 10_state.md R57). -/
def regWrite (idx : Byte) (v : Word) (s : State) : State :=
  match dataIndex idx with
  | some i => dataWrite idx i v s
  | none => if idx = 0x01 then ctrlWrite v s else if idx = 0x03 then commandWrite v s else s

/-- The access of a cycle, performed when the host drives h_valid and the block raises h_ready; a read's data is on
h_rdata in that cycle (10_state.md R43). -/
def portAccess (c : PortCycle) (s : State) : State :=
  if c.hValid && c.hReady then
    if c.hWe then regWrite c.hIdx c.hWdata s else { s with hRdata := some (regRead c.hIdx s) }
  else s

/-- The pins of the next cycle; they idle after the last listed one (log 1). -/
def State.nextPins (s : State) : PortCycle := s.port.headD PortCycle.idle

/-- The start of a cycle: its pins leave the list, and h_rdata carries nothing yet (log 1, log 5). -/
def beginCycle (s : State) : State := { s with port := s.port.tail, hRdata := none }

end Sys2Proof.Machine
end

