-- ==== Sys2Proof/Machine/Cycle.lean ====
section
/-! DEFINITION. One clock cycle, with its events in the order reset, completion, host access (60_exceptions.md R288),
over whatever executes a decoded command. -/

namespace Sys2Proof.Machine

/-- What executes a decoded command. -/
abbrev Executor := Instr → State → Host.Outcome State Fault Refusal

/-- Completion of the in-flight word: decode, then the command's rule, or ILLEGAL with its detail (30_encoding.md R116;
45_control.md R262, R263; 60_exceptions.md R271). -/
def completeWord (run : Executor) (cmd : Word) (s : State) : Host.Outcome State Fault Refusal :=
  match decode cmd with
  | .ok i => run i s
  | .error e => .next (latchFault .illegal e.detail s)

/-- The command engine at a clock edge: the cycles left go down by one, and the command completes where they reach 0
(45_control.md R261). A count of 0, which no run reaches, completes too (DESIGN CHOICE, log 8; safe). -/
def engineEdge (run : Executor) (s : State) : Host.Outcome State Fault Refusal :=
  match s.inflight with
  | none => .next s
  | some f =>
    if f.left ≤ 1 then completeWord run f.cmd s
    else .next { s with inflight := some { f with left := f.left - 1 } }

/-- One clock cycle: rst_n = 0 resets the registers and lets nothing else happen (10_state.md R42; 70_reset_and_hazards.md
R312, R313); otherwise the engine's edge comes first and the host's access sees its result (20_memory.md R91). -/
def cycle (run : Executor) (s : State) : Host.Outcome State Fault Refusal :=
  let pins := s.nextPins
  if pins.rstN then
    match engineEdge run (beginCycle s) with
    | .next t => .next (portAccess pins t)
    | .fault r => .fault r
    | .refused r => .refused r
  else .next (resetRegisters (beginCycle s))

end Sys2Proof.Machine
end

