-- ==== Sys2Proof/Machine/Bitfield.lean ====
section
/-! DEFINITION. The bit-field get/set unit (42_bitfield.md R180 to R194). -/

namespace Sys2Proof.Machine

/-- `fitsU(n, W)` (42_bitfield.md R181). -/
def fitsU (n : ℕ) (w : ℕ) : Bool := decide (n ≤ mask w)

/-- `fitsS(n, W)`; nothing fits a signed width 0 (42_bitfield.md R182). -/
def fitsS (n : ℤ) (w : ℕ) : Bool :=
  decide (1 ≤ w) && decide (-2 ^ (w - 1) ≤ n) && decide (n ≤ 2 ^ (w - 1) - 1)

/-- `contract(W, L)` (42_bitfield.md R183). -/
def contract (w l : ℕ) : Rule Unit := do
  require (decide (w ≤ 64)) .contract 0x80
  require (decide (w + l ≤ 64)) .contract 0x81

/-- The unsigned field of width W at offset L, as an integer: `floor(u64(word) / 2^L) mod 2^W` (42_bitfield.md R186). -/
def fieldValue (word : Word) (w l : ℕ) : ℕ := u64 word / 2 ^ l % 2 ^ w

/-- A field value read as signed: "sign-extends if the field's top bit is set" (42_bitfield.md R187). -/
def signField (v : ℕ) (w : ℕ) : ℤ := if 1 ≤ w ∧ 2 ^ (w - 1) ≤ v then (v : ℤ) - 2 ^ w else v

/-- The word with the bits [L, L+W) replaced by the field f (42_bitfield.md R188, R189). -/
def replaceField (word : Word) (w l f : ℕ) : Word :=
  tc64 ((u64 (word &&& ~~~(tc64 (mask w * 2 ^ l : ℕ))) ||| f * 2 ^ l : ℕ) : ℤ)

/-- `getU(word, W, L)` (42_bitfield.md R186). -/
def getU (word : Word) (w l : ℕ) : Rule Word := do
  contract w l
  return tc64 (fieldValue word w l)

/-- `getS(word, W, L)` (42_bitfield.md R187). -/
def getS (word : Word) (w l : ℕ) : Rule Word := do
  contract w l
  return tc64 (signField (fieldValue word w l) w)

/-- `insU(word, W, L, v)` (42_bitfield.md R188). -/
def insU (word : Word) (w l : ℕ) (v : ℕ) : Rule Word := do
  contract w l
  require (fitsU v w) .overflow 1
  return replaceField word w l v

/-- `insS(word, W, L, v)` (42_bitfield.md R189). -/
def insS (word : Word) (w l : ℕ) (v : ℤ) : Rule Word := do
  contract w l
  require (fitsS v w) .overflow 1
  return replaceField word w l (v % 2 ^ w).toNat

/-- FITSU W (42_bitfield.md R184). -/
def execFitsu (w : ℕ) (s : State) : Host.Outcome State Fault Refusal :=
  finish (.ok { s.x with x2 := boolWord (fitsU (u64 s.x.x1) w) }) s

/-- FITSS W (42_bitfield.md R185). -/
def execFitss (w : ℕ) (s : State) : Host.Outcome State Fault Refusal :=
  finish (.ok { s.x with x2 := boolWord (fitsS (i64 s.x.x1) w) }) s

/-- The result of a bit-field command goes to X2 (42_bitfield.md R180). -/
def intoX2 (x : Regs) (v : Rule Word) : Rule Regs := do
  let r ← v
  return { x with x2 := r }

/-- GETU W, L (42_bitfield.md R186). -/
def execGetu (w l : ℕ) (s : State) : Host.Outcome State Fault Refusal :=
  finish (intoX2 s.x (getU s.x.x0 w l)) s

/-- GETS W, L (42_bitfield.md R187). -/
def execGets (w l : ℕ) (s : State) : Host.Outcome State Fault Refusal :=
  finish (intoX2 s.x (getS s.x.x0 w l)) s

/-- NEWU W, L (42_bitfield.md R188). -/
def execNewu (w l : ℕ) (s : State) : Host.Outcome State Fault Refusal :=
  finish (intoX2 s.x (insU s.x.x0 w l (u64 s.x.x1))) s

/-- NEWS W, L (42_bitfield.md R189). -/
def execNews (w l : ℕ) (s : State) : Host.Outcome State Fault Refusal :=
  finish (intoX2 s.x (insS s.x.x0 w l (i64 s.x.x1))) s

/-- SHL (42_bitfield.md R190). -/
def execShl (s : State) : Host.Outcome State Fault Refusal :=
  finish (.ok { s.x with x2 := shl64 s.x.x0 (u64 s.x.x1) }) s

/-- SHR (42_bitfield.md R191). -/
def execShr (s : State) : Host.Outcome State Fault Refusal :=
  finish (.ok { s.x with x2 := lshr64 s.x.x0 (u64 s.x.x1) }) s

/-- SAR (42_bitfield.md R192). -/
def execSar (s : State) : Host.Outcome State Fault Refusal :=
  finish (.ok { s.x with x2 := ashr64 s.x.x0 (u64 s.x.x1) }) s

end Sys2Proof.Machine
end

