-- ==== Sys2Proof/Machine/Codeword.lean ====
section
/-! DEFINITION. The codeword packer and unpacker (41_codeword.md R160 to R164). The layout, from the least significant
bit: prChroma 4 at 0, pbChroma 4 at 4, qD 5 at 8, qC 5 at 13, qB 5 at 18, qA 9 at 23 (R160). -/

namespace Sys2Proof.Machine

/-- The rule of PACK: every field is checked, qA first, then inserted into a zero word (41_codeword.md R162). -/
def packRule (x : Regs) : Rule Regs := do
  require (fitsU (u64 x.x0) 9) .overflow 0
  require (fitsS (i64 x.x1) 5) .overflow 1
  require (fitsS (i64 x.x2) 5) .overflow 2
  require (fitsS (i64 x.x3) 5) .overflow 3
  require (fitsU (u64 x.x4) 4) .overflow 4
  require (fitsU (u64 x.x5) 4) .overflow 5
  let w ← insU 0 9 23 (u64 x.x0)
  let w ← insS w 5 18 (i64 x.x1)
  let w ← insS w 5 13 (i64 x.x2)
  let w ← insS w 5 8 (i64 x.x3)
  let w ← insU w 4 4 (u64 x.x4)
  let w ← insU w 4 0 (u64 x.x5)
  return { x with x6 := w }

/-- PACK (41_codeword.md R162). -/
def execPack (s : State) : Host.Outcome State Fault Refusal := finish (packRule s.x) s

/-- The rule of UNPACK; bits 63:32 of X6 are ignored (41_codeword.md R163). -/
def unpackRule (x : Regs) : Rule Regs := do
  let w : Word := (lowHalf x.x6).setWidth 64
  let qA ← getU w 9 23
  let qB ← getS w 5 18
  let qC ← getS w 5 13
  let qD ← getS w 5 8
  let pb ← getU w 4 4
  let pr ← getU w 4 0
  return { x with x0 := qA, x1 := qB, x2 := qC, x3 := qD, x4 := pb, x5 := pr }

/-- UNPACK (41_codeword.md R163). -/
def execUnpack (s : State) : Host.Outcome State Fault Refusal := finish (unpackRule s.x) s

end Sys2Proof.Machine
end

