-- ==== Sys2Proof/Machine/Control.lean ====
section
/-! DEFINITION. The control family: NOP (45_control.md R265). -/

namespace Sys2Proof.Machine

/-- NOP: no register changes; the completion still counts (45_control.md R265). -/
def execNop (s : State) : Host.Outcome State Fault Refusal := finish (.ok s.x) s

end Sys2Proof.Machine
end

