-- ==== Sys2Proof/Machine/Converter.lean ====
section
/-! DEFINITION. The colour-space converter (40_converter.md R140 to R145). Y, Pb and Pr, or R, G and B, are exact
rationals until the final rounding. -/

namespace Sys2Proof.Machine

/-- `Y`, from channels scaled to [0, 1] (40_converter.md R141). -/
def lumaOf (r g b : ℚ) : ℚ := 299 / 1000 * r + 587 / 1000 * g + 114 / 1000 * b

/-- `Pb` (40_converter.md R141). -/
def pbOf (r g b : ℚ) : ℚ := -(168736 / 1000000) * r - 331264 / 1000000 * g + 1 / 2 * b

/-- `Pr` (40_converter.md R141). -/
def prOf (r g b : ℚ) : ℚ := 1 / 2 * r - 418688 / 1000000 * g - 81312 / 1000000 * b

/-- The common denominator K of the exact inverse matrix (40_converter.md R143). -/
def inverseK : ℚ := 922967728

/-- `R'` (40_converter.md R143). -/
def redOf (y pb pr : ℚ) : ℚ := y - 1125 / inverseK * pb + 1294000375 / inverseK * pr

/-- `G'` (40_converter.md R143). -/
def greenOf (y pb pr : ℚ) : ℚ := y - 317626125 / inverseK * pb - 659124625 / inverseK * pr

/-- `B'` (40_converter.md R143). -/
def blueOf (y pb pr : ℚ) : ℚ := y + 1635498875 / inverseK * pb + 375 / inverseK * pr

/-- "multiply by denominator, clamp each channel to [0, denominator], then truncate to integer" (40_converter.md
R144; 44_scaler.md R244). -/
def scaleTrunc (v : ℚ) (d : ℕ) : Word := tc64 (trunc (clamp (v * d) 0 (d : ℚ)))

/-- The rule of RGB2YPP (40_converter.md R142). -/
def rgb2yppRule (x : Regs) : Rule Regs := do
  let d := u64 x.x3
  require (d != 0) .divzero 3
  let r : ℚ := u64 x.x0 / d
  let g : ℚ := u64 x.x1 / d
  let b : ℚ := u64 x.x2 / d
  let y ← rnd64 0 (clamp (lumaOf r g b) 0 1)
  let pb ← rnd64 1 (clamp (pbOf r g b) (-1 / 2) (1 / 2))
  let pr ← rnd64 2 (clamp (prOf r g b) (-1 / 2) (1 / 2))
  return { x with x0 := y, x1 := pb, x2 := pr }

/-- RGB2YPP (40_converter.md R142). -/
def execRgb2ypp (s : State) : Host.Outcome State Fault Refusal := finish (rgb2yppRule s.x) s

/-- The rule of YPP2RGB (40_converter.md R144). -/
def ypp2rgbRule (x : Regs) : Rule Regs := do
  let y ← readF64 x 0
  let pb ← readF64 x 1
  let pr ← readF64 x 2
  let d := u64 x.x3
  return { x with x0 := scaleTrunc (redOf y pb pr) d, x1 := scaleTrunc (greenOf y pb pr) d,
                  x2 := scaleTrunc (blueOf y pb pr) d }

/-- YPP2RGB (40_converter.md R144). -/
def execYpp2rgb (s : State) : Host.Outcome State Fault Refusal := finish (ypp2rgbRule s.x) s

end Sys2Proof.Machine
end

