-- ==== Sys2Proof/Machine/DctQuant.lean ====
section
/-! DEFINITION. The DCT-2 kernel and the scalar quantizer (43_dct_quant.md R210 to R219). -/

namespace Sys2Proof.Machine

/-- Four exact values: luma samples Y1..Y4 or coefficients a, b, c, d (43_dct_quant.md R210). -/
structure Quad where
  v1 : ℚ
  v2 : ℚ
  v3 : ℚ
  v4 : ℚ
  deriving DecidableEq

/-- The forward transform (43_dct_quant.md R210). -/
def dctForward (y : Quad) : Quad :=
  ⟨(y.v1 + y.v2 + y.v3 + y.v4) / 4, (y.v1 - y.v2 + y.v3 - y.v4) / 4,
   (y.v1 + y.v2 - y.v3 - y.v4) / 4, (y.v1 - y.v2 - y.v3 + y.v4) / 4⟩

/-- The inverse transform (43_dct_quant.md R211). -/
def dctInverse (c : Quad) : Quad :=
  ⟨c.v1 + c.v2 + c.v3 + c.v4, c.v1 - c.v2 + c.v3 - c.v4,
   c.v1 + c.v2 - c.v3 - c.v4, c.v1 - c.v2 - c.v3 + c.v4⟩

/-- X0..X3 through `f64`, in order (43_dct_quant.md R212). -/
def readQuad (x : Regs) : Rule Quad := do
  let v1 ← readF64 x 0
  let v2 ← readF64 x 1
  let v3 ← readF64 x 2
  let v4 ← readF64 x 3
  return ⟨v1, v2, v3, v4⟩

/-- X0..X3 from four exact values, each rounded once, in order (43_dct_quant.md R212, R213). -/
def writeQuad (x : Regs) (q : Quad) : Rule Regs := do
  let p0 ← rnd64 0 q.v1
  let p1 ← rnd64 1 q.v2
  let p2 ← rnd64 2 q.v3
  let p3 ← rnd64 3 q.v4
  return { x with x0 := p0, x1 := p1, x2 := p2, x3 := p3 }

/-- The rule of DCT (43_dct_quant.md R212). -/
def dctRule (x : Regs) : Rule Regs := do
  let y ← readQuad x
  writeQuad x (dctForward y)

/-- DCT (43_dct_quant.md R212). -/
def execDct (s : State) : Host.Outcome State Fault Refusal := finish (dctRule s.x) s

/-- The rule of IDCT (43_dct_quant.md R213). -/
def idctRule (x : Regs) : Rule Regs := do
  let c ← readQuad x
  writeQuad x (dctInverse c)

/-- IDCT (43_dct_quant.md R213). -/
def execIdct (s : State) : Host.Outcome State Fault Refusal := finish (idctRule s.x) s

/-- The rule of AVG4 (43_dct_quant.md R214). -/
def avg4Rule (x : Regs) : Rule Regs := do
  let v ← readQuad x
  let p0 ← rnd64 0 ((v.v1 + v.v2 + v.v3 + v.v4) / 4)
  return { x with x0 := p0 }

/-- AVG4 (43_dct_quant.md R214). -/
def execAvg4 (s : State) : Host.Outcome State Fault Refusal := finish (avg4Rule s.x) s

/-- The DC scale 2^9 - 1 (43_dct_quant.md R215). -/
def dcScale : ℚ := 511

/-- The AC scale (2^5 - 2) / 0.6 (43_dct_quant.md R215). -/
def acScale : ℚ := 50

/-- An AC coefficient quantized: scaled, rounded, then clamped once to -15..15 (43_dct_quant.md R215, R216). -/
def quantAc (c : ℚ) : ℤ := clamp (roundHA (acScale * c)) (-15) 15

/-- The rule of QUANT (43_dct_quant.md R216). -/
def quantRule (x : Regs) : Rule Regs := do
  let y ← readQuad x
  let pb ← readF64 x 4
  let pr ← readF64 x 5
  let c := dctForward y
  let qA := roundHA (dcScale * c.v1)
  require (decide (0 ≤ qA) && decide (qA ≤ 2 ^ 64 - 1)) .overflow 0
  return { x with
    x0 := tc64 qA, x1 := tc64 (quantAc c.v2), x2 := tc64 (quantAc c.v3), x3 := tc64 (quantAc c.v4),
    x4 := tc64 (chromaIndex pb), x5 := tc64 (chromaIndex pr) }

/-- QUANT (43_dct_quant.md R216). -/
def execQuant (s : State) : Host.Outcome State Fault Refusal := finish (quantRule s.x) s

/-- The exact coefficients of a quantized record: "divide by the same scale constants" (43_dct_quant.md R217). -/
def dequantCoefficients (x : Regs) : Quad :=
  ⟨u64 x.x0 / dcScale, i64 x.x1 / acScale, i64 x.x2 / acScale, i64 x.x3 / acScale⟩

/-- The rule of DEQUANT (43_dct_quant.md R217). -/
def dequantRule (x : Regs) : Rule Regs := do
  let pbi := u64 x.x4
  let pri := u64 x.x5
  require (decide (pbi ≤ 15)) .contract 4
  require (decide (pri ≤ 15)) .contract 5
  let r ← writeQuad x (dctInverse (dequantCoefficients x))
  return { r with x4 := chromaOf (BitVec.ofNat 4 pbi), x5 := chromaOf (BitVec.ofNat 4 pri) }

/-- DEQUANT (43_dct_quant.md R217). -/
def execDequant (s : State) : Host.Outcome State Fault Refusal := finish (dequantRule s.x) s

end Sys2Proof.Machine
end

