-- ==== Sys2Proof/Machine/Scaler.lean ====
section
/-! DEFINITION. The fixed-point scaler with clamping (44_scaler.md R240 to R245): operands X0 and X1, result X2. -/

namespace Sys2Proof.Machine

/-- The rule of SQRND (44_scaler.md R241). -/
def sqrndRule (x : Regs) : Rule Word := do
  let v ← readF64 x 0
  let s ← readF64 x 1
  let q := roundHA (v * s)
  require (decide (-2 ^ 63 ≤ q) && decide (q ≤ 2 ^ 63 - 1)) .overflow 2
  return tc64 q

/-- SQRND (44_scaler.md R241). -/
def execSqrnd (s : State) : Host.Outcome State Fault Refusal := finish (intoX2 s.x (sqrndRule s.x)) s

/-- `B = floor((2^W - 1) / 2)` (44_scaler.md R242). -/
def clampBound (w : ℕ) : ℤ := ((2 ^ w - 1) / 2 : ℕ)

/-- The rule of SQCLAMP W (44_scaler.md R242). -/
def sqclampRule (w : ℕ) (x : Regs) : Rule Word := do
  require (decide (w ≤ 64)) .contract 0x80
  let v ← readF64 x 0
  let s ← readF64 x 1
  return tc64 (clamp (roundHA (v * s)) (-clampBound w) (clampBound w))

/-- SQCLAMP W (44_scaler.md R242). -/
def execSqclamp (w : ℕ) (s : State) : Host.Outcome State Fault Refusal :=
  finish (intoX2 s.x (sqclampRule w s.x)) s

/-- The rule of SDQ; +0 and -0 are both a zero scale (44_scaler.md R243). -/
def sdqRule (x : Regs) : Rule Word := do
  let n := i64 x.x0
  let s ← readF64 x 1
  require (decide (s ≠ 0)) .divzero 1
  rnd64 2 (n / s)

/-- SDQ (44_scaler.md R243). -/
def execSdq (s : State) : Host.Outcome State Fault Refusal := finish (intoX2 s.x (sdqRule s.x)) s

/-- The rule of SATTRUNC (44_scaler.md R244). -/
def sattruncRule (x : Regs) : Rule Word := do
  let v ← readF64 x 0
  return scaleTrunc v (u64 x.x1)

/-- SATTRUNC (44_scaler.md R244). -/
def execSattrunc (s : State) : Host.Outcome State Fault Refusal := finish (intoX2 s.x (sattruncRule s.x)) s

end Sys2Proof.Machine
end

