-- ==== Sys2Proof/Machine/Dispatch.lean ====
section
/-! DEFINITION. The execution of a decoded command at its completion: one arm per constructor of Instr
(30_encoding.md R114, R116; 45_control.md R262). -/

namespace Sys2Proof.Machine

def exec (i : Instr) (s : State) : Host.Outcome State Fault Refusal :=
  match i with
  | .nop => Sys2Proof.Machine.execNop s
  | .rgb2ypp => Sys2Proof.Machine.execRgb2ypp s
  | .ypp2rgb => Sys2Proof.Machine.execYpp2rgb s
  | .pack => Sys2Proof.Machine.execPack s
  | .unpack => Sys2Proof.Machine.execUnpack s
  | .fitsu w => Sys2Proof.Machine.execFitsu w s
  | .fitss w => Sys2Proof.Machine.execFitss w s
  | .getu w l => Sys2Proof.Machine.execGetu w l s
  | .gets w l => Sys2Proof.Machine.execGets w l s
  | .newu w l => Sys2Proof.Machine.execNewu w l s
  | .news w l => Sys2Proof.Machine.execNews w l s
  | .shl => Sys2Proof.Machine.execShl s
  | .shr => Sys2Proof.Machine.execShr s
  | .sar => Sys2Proof.Machine.execSar s
  | .dct => Sys2Proof.Machine.execDct s
  | .idct => Sys2Proof.Machine.execIdct s
  | .avg4 => Sys2Proof.Machine.execAvg4 s
  | .quant => Sys2Proof.Machine.execQuant s
  | .dequant => Sys2Proof.Machine.execDequant s
  | .sqrnd => Sys2Proof.Machine.execSqrnd s
  | .sqclamp w => Sys2Proof.Machine.execSqclamp w s
  | .sdq => Sys2Proof.Machine.execSdq s
  | .sattrunc => Sys2Proof.Machine.execSattrunc s

end Sys2Proof.Machine
end

