-- ==== Sys2Proof/Machine/Step.lean ====
section
/-! DEFINITION. The step, one clock cycle of the block, and the placing of a command where the next step runs it. -/

namespace Sys2Proof.Machine

/-- One rising edge of clk (10_state.md R41; 60_exceptions.md R288). -/
def step (s : State) : Host.Outcome State Fault Refusal := cycle exec s

/-- The command word `w` in flight, accepted and at its last cycle, with one idle cycle next, so that the very next
step runs it (log 9): CMDLAST is its low half, as 10_state.md R58 has it for a word in flight. The bits above `nbits` are 0. -/
def State.withFetchWord (s : State) (nbits w : ℕ) : State :=
  let cmd : Word := BitVec.ofNat 64 (w % 2 ^ nbits)
  { s with inflight := some ⟨cmd, 1⟩, cmdLast := lowHalf cmd, port := PortCycle.idle :: s.port }

end Sys2Proof.Machine
end

