-- ==== Sys2Proof/Machine/HostProgram.lean ====
section
/-! DEFINITION. Host programs: the register accesses and host control flow of 30_encoding.md R120, the
pseudo-instructions of R121, and a host that runs one statement a cycle beside the block (00_scope.md R7). The block
sees only the pins. -/

namespace Sys2Proof.Machine

/-- `<value>`: a literal or a host variable (30_encoding.md R120). -/
inductive HostValue where
  | lit (v : Word)
  | var (name : String)
  deriving DecidableEq, Repr

/-- A statement of a host program (30_encoding.md R120). -/
inductive HostStmt where
  /-- `WR <reg>, <value>` -/
  | wr (idx : Byte) (value : HostValue)
  /-- `RD <reg> -> $name` -/
  | rd (idx : Byte) (name : String)
  /-- `<label>:` -/
  | label (name : String)
  /-- `BRBIT $name, <bit>, <label>` -/
  | brbit (name : String) (bit : ℕ) (target : String)
  deriving DecidableEq, Repr

/-- The port index of a register's name (20_memory.md R80; 30_encoding.md R120). -/
def regIndex (name : String) : Option Byte :=
  ([("ID", 0x00), ("CTRL", 0x01), ("STATUS", 0x02), ("CMD", 0x03), ("FINFO", 0x04), ("CMDCNT", 0x05), ("X0", 0x08),
    ("X1", 0x09), ("X2", 0x0A), ("X3", 0x0B), ("X4", 0x0C), ("X5", 0x0D), ("X6", 0x0E), ("X7", 0x0F)] :
    List (String × Byte)).lookup name

/-- The port index of Xn (20_memory.md R80). -/
def dataPortIndex (n : Fin 8) : Byte := BitVec.ofNat 8 (8 + n.val)

/-- A command line: `RegWrite(0x03, cmd)`; rejected where W or L is outside 0..127, as the assembler rejects it
(30_encoding.md R119). -/
def commandLine (i : Instr) : Option (List HostStmt) :=
  if i.wellFormed then some [.wr 0x03 (.lit (encode i))] else none

/-- `WAIT` (30_encoding.md R121), under a label that the program chooses for it, since a label standing twice is the first
one (DESIGN CHOICE, log 20; unsafe). -/
def waitLoop (label : String) : List HostStmt := [.label label, .rd 0x02 "s", .brbit "s" 0 label]

/-- `CHECK`: the read of STATUS (30_encoding.md R121). What a host does when the assertion on the word it read fails is not in
the spec: the modelled host goes on to its next statement, and `checkHolds` says of the word whether the assertion held
(DESIGN CHOICE, log 20; unsafe). -/
def checkRead : List HostStmt := [.rd 0x02 "s"]

/-- What `CHECK` states of the word it read: `$s[15:8] = 0` (30_encoding.md R121). It stops nothing (log 20). -/
def checkHolds (status : Word) : Bool := status.extractLsb' 8 8 == 0

/-- `LDI Xn, <int>`, for an integer in -2^63..2^64-1 (30_encoding.md R121). -/
def loadInt (n : Fin 8) (v : ℤ) : Option (List HostStmt) :=
  if -2 ^ 63 ≤ v ∧ v ≤ 2 ^ 64 - 1 then some [.wr (dataPortIndex n) (.lit (tc64 v))] else none

/-- `LDF Xn, <decimal>`: the decimal rounded once by `rnd64` (30_encoding.md R121). A decimal at or above the overflow
threshold has no pattern, and the spec does not say what the assembler then does: the line is rejected (DESIGN CHOICE,
log 21; safe). -/
def loadF64 (n : Fin 8) (q : ℚ) : Option (List HostStmt) :=
  (rnd64 n q).toOption.map fun p => [.wr (dataPortIndex n) (.lit p)]

/-- `MOVX Xd, Xs` (30_encoding.md R121). -/
def moveX (d s : Fin 8) : List HostStmt := [.rd (dataPortIndex s) "t", .wr (dataPortIndex d) (.var "t")]

/-- `RUN <command>` (30_encoding.md R121). -/
def runCommand (i : Instr) (label : String) : Option (List HostStmt) :=
  (commandLine i).map fun line => line ++ waitLoop label ++ checkRead

/-- A host at a statement of its program, with its variables (00_scope.md R7; 30_encoding.md R120). -/
structure HostAgent where
  program : List HostStmt
  pos : ℕ
  vars : List (String × Word)
  deriving DecidableEq, Repr

/-- The value of a host value, none for a variable not set yet. -/
def HostAgent.value (h : HostAgent) : HostValue → Option Word
  | .lit v => some v
  | .var name => h.vars.lookup name

/-- A cycle that performs one access. -/
def accessCycle (write : Bool) (idx : Byte) (data : Word) : PortCycle := ⟨true, true, true, write, idx, data⟩

/-- The pins the host drives for its current statement: an access for WR and RD, idle for the rest. A WR of a variable
not set yet waits (DESIGN CHOICE, log 16; safe). -/
def HostAgent.pins (h : HostAgent) : PortCycle :=
  match h.program[h.pos]? with
  | some (.wr idx value) =>
    match h.value value with
    | some v => accessCycle true idx v
    | none => PortCycle.idle
  | some (.rd idx _) => accessCycle false idx 0
  | _ => PortCycle.idle

/-- The host after its current statement, given what h_rdata carried. A BRBIT on a variable not set yet, or to a label
the program lacks, waits (DESIGN CHOICE, log 16; safe). A label that stands twice is the first one, and a bit of 64 or more
is 0, so its branch is not taken (DESIGN CHOICE, log 20; unsafe). -/
def HostAgent.advance (h : HostAgent) (rdata : Option Word) : HostAgent :=
  match h.program[h.pos]? with
  | some (.wr _ value) => if (h.value value).isSome then { h with pos := h.pos + 1 } else h
  | some (.rd _ name) =>
    match rdata with
    | some v => { h with pos := h.pos + 1, vars := (name, v) :: h.vars.filter fun b => b.1 != name }
    | none => h
  | some (.label _) => { h with pos := h.pos + 1 }
  | some (.brbit name bit target) =>
    match h.vars.lookup name with
    | none => h
    | some v =>
      if v.getLsbD bit then
        match h.program.findIdx? fun st => decide (st = .label target) with
        | some k => { h with pos := k }
        | none => h
      else { h with pos := h.pos + 1 }
  | none => h

/-- One cycle of a host and its block: the host's pins, then the block's step, then the host sees h_rdata. -/
def systemStep (h : HostAgent) (s : State) : Host.Outcome (HostAgent × State) Fault Refusal :=
  match step { s with port := [h.pins] } with
  | .next t => .next (h.advance t.hRdata, t)
  | .fault r => .fault r
  | .refused r => .refused r

end Sys2Proof.Machine
end

