-- ==== Sys2Proof/Machine/Instances.lean ====
section
/-! DEFINITION. Several instances of the block (00_scope.md R11, N_INST; 20_memory.md R96; 60_exceptions.md R295): each has
its own state and its own port, and shares nothing with another. -/

namespace Sys2Proof.Machine

/-- The instances of a system, at least one (00_scope.md R11, N_INST). -/
structure System where
  first : State
  others : List State
  deriving DecidableEq, Repr

/-- All the instances, in order. -/
def System.instances (y : System) : List State := y.first :: y.others

/-- Each instance carries its own place as its number, so each has latencies of its own (00_scope.md R11; log 19). -/
def System.numbered (y : System) : Bool := y.instances.map State.instNo == List.range y.instances.length

/-- A system of n + 1 instances after reset. -/
def System.reset (n : ℕ) : System :=
  ⟨State.reset, (List.range n).map fun k => { State.reset with instNo := k + 1 }⟩

/-- One clock edge of every instance of a list, each with its own step (60_exceptions.md R295). That all take an edge at
once is the model's choice (DESIGN CHOICE, log 14; safe), and so is one chroma table for them all (DEDUCED, log 4). -/
def stepInstances : List State → Host.Outcome (List State) Fault Refusal
  | [] => .next []
  | s :: rest =>
    match step s, stepInstances rest with
    | .next t, .next ts => .next (t :: ts)
    | .fault r, _ => .fault r
    | .refused r, _ => .refused r
    | .next _, .fault r => .fault r
    | .next _, .refused r => .refused r

/-- One clock edge of a system (log 14). -/
def System.step (y : System) : Host.Outcome System Fault Refusal :=
  match Machine.step y.first, stepInstances y.others with
  | .next t, .next ts => .next ⟨t, ts⟩
  | .fault r, _ => .fault r
  | .refused r, _ => .refused r
  | .next _, .fault r => .fault r
  | .next _, .refused r => .refused r

end Sys2Proof.Machine
end

