-- ==== Sys2Proof/Machine/Stream.lean ====
section
/-! DEFINITION. The byte order of a codeword in the compressed stream, big-endian (20_memory.md R88; 41_codeword.md
R170, R171). The block itself never reads or writes the stream. -/

namespace Sys2Proof.Machine

/-- The four stream bytes of a codeword, most significant first (41_codeword.md R170). -/
def codewordBytes (cw : Half) : List Byte :=
  [cw.extractLsb' 24 8, cw.extractLsb' 16 8, cw.extractLsb' 8 8, cw.extractLsb' 0 8]

/-- The codeword of the next four stream bytes and the rest of the stream; fewer than four bytes are a malformed
stream (41_codeword.md R171). -/
def codewordOfBytes : List Byte → Option (Half × List Byte)
  | b0 :: b1 :: b2 :: b3 :: rest =>
    some (BitVec.ofNat 32 (b0.toNat * 2 ^ 24 + b1.toNat * 2 ^ 16 + b2.toNat * 2 ^ 8 + b3.toNat), rest)
  | _ => none

end Sys2Proof.Machine
end

