-- ==== Sys2Proof/Safety.lean ====
section
/-! DEFINITION. The terms claims use: the next states the rules give, the register sets of 30_encoding.md R113, what a
well-behaved host does, and the invariant of every reachable state. -/

namespace Sys2Proof.Machine

/-- Completion without a fault, as 45_control.md R262 writes it. -/
def completed (results : Regs) (s : State) : State :=
  { s with x := results, cmdCnt := s.cmdCnt + 1, inflight := none }

/-- Completion with a fault, as 45_control.md R263 writes it: the code, the detail and the low half of the command. -/
def faultedWith (code detail : Byte) (s : State) : State :=
  { s with fault := code, finfo := ⟨s.commandHalf, detail⟩, inflight := none }

/-- The registers a command writes (30_encoding.md R113). -/
def writesOf : Instr → List (Fin 8)
  | .nop => []
  | .rgb2ypp | .ypp2rgb => [0, 1, 2]
  | .pack => [6]
  | .unpack | .quant | .dequant => [0, 1, 2, 3, 4, 5]
  | .fitsu _ | .fitss _ | .getu _ _ | .gets _ _ | .newu _ _ | .news _ _ => [2]
  | .shl | .shr | .sar | .sqrnd | .sqclamp _ | .sdq | .sattrunc => [2]
  | .dct | .idct => [0, 1, 2, 3]
  | .avg4 => [0]

/-- The registers a command reads (30_encoding.md R113). -/
def readsOf : Instr → List (Fin 8)
  | .nop => []
  | .rgb2ypp | .ypp2rgb | .dct | .idct | .avg4 => [0, 1, 2, 3]
  | .pack | .quant | .dequant => [0, 1, 2, 3, 4, 5]
  | .unpack => [6]
  | .fitsu _ | .fitss _ => [1]
  | .getu _ _ | .gets _ _ => [0]
  | .newu _ _ | .news _ _ | .shl | .shr | .sar | .sqrnd | .sqclamp _ | .sdq | .sattrunc => [0, 1]

/-- The first register of a list that holds a non-finite pattern (00_scope.md R24: operands are checked in the order
the rule lists them). -/
def firstNonFinite (x : Regs) (operands : List (Fin 8)) : Option (Fin 8) :=
  operands.find? fun r => !isFinite (x.get r)

/-- The faults a command's own rule can raise, as code and detail (60_exceptions.md R272 to R276, R278). -/
def mayRaise : Instr → List (Byte × Byte)
  | .nop | .unpack | .fitsu _ | .fitss _ | .shl | .shr | .sar => []
  | .rgb2ypp => [(5, 3)]
  | .ypp2rgb => [(4, 0), (4, 1), (4, 2)]
  | .pack => [(3, 0), (3, 1), (3, 2), (3, 3), (3, 4), (3, 5)]
  | .getu _ _ | .gets _ _ => [(2, 0x80), (2, 0x81)]
  | .newu _ _ | .news _ _ => [(2, 0x80), (2, 0x81), (3, 1)]
  | .dct | .avg4 => [(4, 0), (4, 1), (4, 2), (4, 3)]
  | .idct => [(4, 0), (4, 1), (4, 2), (4, 3), (6, 0), (6, 1), (6, 2), (6, 3)]
  | .quant => [(4, 0), (4, 1), (4, 2), (4, 3), (4, 4), (4, 5), (3, 0)]
  | .dequant => [(2, 4), (2, 5)]
  | .sqrnd => [(4, 0), (4, 1), (3, 2)]
  | .sqclamp _ => [(2, 0x80), (4, 0), (4, 1)]
  | .sdq => [(4, 1), (5, 1), (6, 2)]
  | .sattrunc => [(4, 0)]

/-- The codes and details STATUS.FAULT and FINFO.DETAIL may hold (60_exceptions.md R278). -/
def legalFault (code detail : Byte) : Bool :=
  match code.toNat with
  | 0 => detail == 0
  | 1 => decide (detail.toNat ≤ 2)
  | 2 => detail == 0x80 || detail == 0x81 || detail == 4 || detail == 5
  | 3 => decide (detail.toNat ≤ 5)
  | 4 => decide (detail.toNat ≤ 5)
  | 5 => detail == 1 || detail == 3
  | 6 => decide (detail.toNat ≤ 3)
  | 7 => detail == 3 || (decide (8 ≤ detail.toNat) && decide (detail.toNat ≤ 15))
  | _ => false

/-- What holds of every reachable state of the block. -/
structure State.Inv (s : State) : Prop where
  /-- "BUSY = 1 and FAULT != 0 never hold together" (10_state.md R53). -/
  busyNotFaulted : s.inflight ≠ none → s.fault = 0
  /-- "its low 32 bits equal CMDLAST" (10_state.md R58). -/
  inflightLow : ∀ f, s.inflight = some f → lowHalf f.cmd = s.cmdLast
  /-- The cycles left are between 1 and LAT (45_control.md R261). -/
  cyclesLeft : ∀ f, s.inflight = some f → 1 ≤ f.left ∧ f.left ≤ Config.lat s.instNo (opcField f.cmd)
  /-- Only the codes and details of 60_exceptions.md R278 are produced. -/
  faultLegal : legalFault s.fault s.finfo.detail = true
  /-- FINFO is written only when a fault is latched (10_state.md R55). -/
  finfoClear : s.fault = 0 → s.finfo = ⟨0, 0⟩
  /-- "CMDLAST keeps that command's low word as well" (60_exceptions.md R280). -/
  finfoWord : s.fault ≠ 0 → s.finfo.cmdWord = s.cmdLast

/-- The cycle performs an access (10_state.md R43). -/
def PortCycle.performs (c : PortCycle) : Bool := c.rstN && c.hValid && c.grant

/-- The cycle performs a read of a register index. -/
def PortCycle.reads (c : PortCycle) (idx : Byte) : Bool := c.performs && !c.hWe && c.hIdx == idx

/-- The cycle performs a write of a word to a register index. -/
def PortCycle.writes (c : PortCycle) (idx : Byte) (v : Word) : Bool :=
  c.performs && c.hWe && c.hIdx == idx && c.hWdata == v

/-- The cycle is out of reset and performs no access. -/
def PortCycle.quiet (c : PortCycle) : Bool := c.rstN && !c.performs

/-- An index whose write while busy raises BUSY: CMD or a data register (60_exceptions.md R277). -/
def guardedIndex (idx : Byte) : Bool := idx == 0x03 || (decide (8 ≤ idx.toNat) && decide (idx.toNat ≤ 15))

/-- What a cycle leaves when the block does nothing in it: its pins are gone and no read was performed. -/
def afterCycle (s : State) : State := { s with port := s.port.tail, hRdata := none }

/-- The host keeps h_valid, h_we, h_idx and h_wdata until a cycle with h_ready = 1 (10_state.md R43): what the pins of
a well-behaved host satisfy. -/
def hostHolds : List PortCycle → Bool
  | c :: d :: rest =>
    (!(c.hValid && !c.hReady) ||
      (d.hValid && d.hWe == c.hWe && d.hIdx == c.hIdx && (!c.hWe || d.hWdata == c.hWdata))) && hostHolds (d :: rest)
  | _ => true

/-- The host does not write CMD or X0..X7 in this cycle while STATUS.BUSY = 1 (70_reset_and_hazards.md R316). -/
def hazardFree (c : PortCycle) (s : State) : Bool := !(c.performs && c.hWe && guardedIndex c.hIdx && s.busy)

end Sys2Proof.Machine
end

