-- ==== Sys2Proof/Certificates/Slice0/Obligations.lean ====
section
/-! DEFINITION. The statements for the provers. Each docstring names the rules of spec/ it formalises. The next states are
written with `completed`, `faultedWith` and `afterCycle` of Sys2Proof/Safety.lean, which are plain record updates. -/

open Sys2Proof Sys2Proof.Machine

/-! ## Encoding -/

/-- 30_encoding.md R122: each line of the table, assembled, encoded and decoded; and GETU 65, 0 raises CONTRACT. -/
def Obligations.SampleCommandWords : Prop :=
  (∀ row ∈ ([("NOP", [], .nop, 0x0), ("PACK", [], .pack, 0x8), ("UNPACK", [], .unpack, 0x9),
      ("QUANT", [], .quant, 0x23), ("DEQUANT", [], .dequant, 0x24), ("FITSU", [4], .fitsu 4, 0x410),
      ("FITSS", [4], .fitss 4, 0x411), ("GETU", [8, 8], .getu 8 8, 0x80812), ("GETU", [4, 0], .getu 4 0, 0x412),
      ("NEWU", [4, 0], .newu 4 0, 0x414), ("NEWS", [5, 18], .news 5 18, 0x120515),
      ("GETU", [64, 0], .getu 64 0, 0x4012), ("GETU", [65, 0], .getu 65 0, 0x4112),
      ("SQCLAMP", [5], .sqclamp 5, 0x529)] : List (String × List ℕ × Instr × Word)),
    assemble row.1 row.2.1 = some row.2.2.2 ∧ encode row.2.2.1 = row.2.2.2 ∧ decode row.2.2.2 = .ok row.2.2.1) ∧
  ∀ s : State, exec (.getu 65 0) s = .next (faultedWith 2 0x80 s)

/-- 30_encoding.md R111, R114, R119: decoding the encoding of a well-formed command gives it back. -/
def Obligations.DecodeOfEncode : Prop :=
  ∀ i : Instr, i.wellFormed = true → decode (encode i) = .ok i

/-- 30_encoding.md R116, R119: a word that decodes is the encoding of the well-formed command it decodes to, so no bit
of it is dropped. -/
def Obligations.EncodeOfDecode : Prop :=
  ∀ (cmd : Word) (i : Instr), decode cmd = .ok i → i.wellFormed = true ∧ encode i = cmd

/-- 30_encoding.md R116, 60_exceptions.md R271: at the completion of an in-flight word the three checks apply in
order, each with its ILLEGAL detail, and a word that passes them runs the command of its OPC with its W and L. The
checks are written on the word as a number. -/
def Obligations.DecodeAtCompletion : Prop :=
  ∀ (s : State) (cmd : Word), s.inflight = some ⟨cmd, 1⟩ → s.nextPins.quiet = true →
    let opc := cmd.toNat % 2 ^ 8
    let w := cmd.toNat / 2 ^ 8 % 2 ^ 7
    let l := cmd.toNat / 2 ^ 16 % 2 ^ 7
    let named := opc ∈ [0x00, 0x01, 0x02, 0x08, 0x09, 0x10, 0x11, 0x12, 0x13, 0x14, 0x15, 0x16, 0x17, 0x18,
      0x20, 0x21, 0x22, 0x23, 0x24, 0x28, 0x29, 0x2A, 0x2B]
    let reserved := cmd.toNat / 2 ^ 15 % 2 ≠ 0 ∨ cmd.toNat / 2 ^ 23 ≠ 0
    let unused := (w ≠ 0 ∧ opc ∉ [0x10, 0x11, 0x12, 0x13, 0x14, 0x15, 0x29]) ∨
      (l ≠ 0 ∧ opc ∉ [0x12, 0x13, 0x14, 0x15])
    (¬named → step s = .next (faultedWith 1 0x00 (afterCycle s))) ∧
    (named → reserved → step s = .next (faultedWith 1 0x01 (afterCycle s))) ∧
    (named → ¬reserved → unused → step s = .next (faultedWith 1 0x02 (afterCycle s))) ∧
    (named → ¬reserved → ¬unused →
      ∃ i : Instr, i.opc.toNat = opc ∧ i.w = w ∧ i.l = l ∧ step s = exec i (afterCycle s))

/-! ## The step -/

/-- 45_control.md R262, 60_exceptions.md R288: a step whose in-flight word is at its last cycle (or, in states no run
reaches, at a count of 0: log 8) and decodes to i is exec of i, after the cycle's pins left the list, and then the
cycle's access. -/
def Obligations.StepRunsDecodedCommand : Prop :=
  ∀ (s : State) (cmd : Word) (left : ℕ) (i : Instr), s.inflight = some ⟨cmd, left⟩ → left ≤ 1 →
    s.nextPins.rstN = true → decode cmd = .ok i →
    step s = match exec i (afterCycle s) with
      | .next t => .next (portAccess s.nextPins t)
      | .fault r => .fault r
      | .refused r => .refused r

/-- 45_control.md R261: before its last cycle an in-flight command only counts down, in a cycle without an access;
with nothing in flight such a cycle changes nothing. -/
def Obligations.InFlightCountsDown : Prop :=
  ∀ s : State, s.nextPins.quiet = true →
    (∀ (cmd : Word) (n : ℕ), s.inflight = some ⟨cmd, n + 2⟩ →
      step s = .next { afterCycle s with inflight := some ⟨cmd, n + 1⟩ }) ∧
    (s.inflight = none → step s = .next (afterCycle s))

/-- 45_control.md R261, 70_reset_and_hazards.md R320: over cycles without access or reset, a command with n + 1 cycles
left completes at exactly the (n + 1)-th step, as exec of what it decodes to, or with ILLEGAL. -/
def Obligations.InFlightCommandCompletes : Prop :=
  ∀ (s : State) (cmd : Word) (n : ℕ), s.inflight = some ⟨cmd, n + 1⟩ → (∀ c ∈ s.port, c.quiet = true) →
    let last : State := { s with inflight := some ⟨cmd, 1⟩, port := s.port.drop (n + 1), hRdata := none }
    (∀ i, decode cmd = .ok i → Host.Core.run core (n + 1) s = exec i last) ∧
    (∀ e, decode cmd = .error e → Host.Core.run core (n + 1) s = .next (faultedWith 1 e.detail last))

/-- 00_scope.md R8, 20_memory.md R82: every state steps to a next state. -/
def Obligations.StepAlwaysAnswersNext : Prop := ∀ s : State, ∃ t : State, step s = .next t

/-- 10_state.md R42: rst_n = 0 puts every register into its reset value and discards an in-flight command; while it is
0, h_ready and irq are 0. -/
def Obligations.HardwareResetCycle : Prop :=
  ∀ s : State, s.nextPins.rstN = false →
    step s = .next { State.reset with port := s.port.tail, instNo := s.instNo } ∧
    s.nextPins.hReady = false ∧ s.irqPin s.nextPins.rstN = false

/-- 70_reset_and_hazards.md R311: what either reset leaves, and what a read of each index then returns; h_rdata
without a read is any value. -/
def Obligations.ResetValues : Prop :=
  ∀ s t : State,
    (t = State.reset ∨ (s.nextPins.rstN = false ∧ step s = .next t) ∨
      ∃ v : Word, v.getLsbD 1 = true ∧ t = regWrite 0x01 v s) →
    t.x = ⟨0, 0, 0, 0, 0, 0, 0, 0⟩ ∧ t.fie = false ∧ t.busy = false ∧ t.irq = false ∧ t.fault = 0 ∧
    t.cmdLast = 0 ∧ t.finfo = ⟨0, 0⟩ ∧ t.cmdCnt = 0 ∧ t.inflight = none ∧
    (∀ idx : Byte, regRead idx t = if idx = 0 then 0x0000000144435432 else 0) ∧
    (t.hRdata = none → ∀ free : Word, t.hRdataPin free = free)

/-- Sys2Proof/Safety.lean's invariant holds at reset. -/
def Obligations.InvariantAtReset : Prop := State.reset.Inv

/-- 10_state.md R53, R55, R58, 60_exceptions.md R278, R280, R284: every step keeps the invariant: BUSY and FAULT never
together, the in-flight word's low half in CMDLAST, the cycles left within LAT, only listed codes and details, FINFO
clear without a fault, and FINFO.CMDWORD = CMDLAST with one. -/
def Obligations.StepKeepsInvariant : Prop := ∀ s t : State, s.Inv → step s = .next t → t.Inv

/-! ## Frames of all commands -/

/-- 30_encoding.md R113: registers not listed as written are unchanged, X7 for every command. -/
def Obligations.WritesOnlyListedRegisters : Prop :=
  ∀ (i : Instr) (s t : State), exec i s = .next t → ∀ r : Fin 8, r ∉ writesOf i → t.x.get r = s.x.get r

/-- 30_encoding.md R113, 00_scope.md R8: a command's outcome does not depend on a register not listed as read. -/
def Obligations.ReadsOnlyListedRegisters : Prop :=
  ∀ (i : Instr) (s t t' : State) (x' : Regs), (∀ r ∈ readsOf i, x'.get r = s.x.get r) →
    exec i s = .next t → exec i { s with x := x' } = .next t' →
    t'.fault = t.fault ∧ t'.finfo = t.finfo ∧ t'.cmdCnt = t.cmdCnt ∧
    (t.cmdCnt = s.cmdCnt + 1 → ∀ r ∈ writesOf i, t'.x.get r = t.x.get r)

/-- 45_control.md R262, R263, 60_exceptions.md R280: executing any command empties INFLIGHT, leaves CTRL, CMDLAST, the
pins and the instance's number alone, and either counts and keeps the fault registers, or latches a fault, writes no X
register and does not count. -/
def Obligations.ExecutionFrame : Prop :=
  ∀ (i : Instr) (s t : State), exec i s = .next t →
    t.inflight = none ∧ t.fie = s.fie ∧ t.cmdLast = s.cmdLast ∧ t.port = s.port ∧ t.hRdata = s.hRdata ∧
    t.instNo = s.instNo ∧
    ((t.cmdCnt = s.cmdCnt + 1 ∧ t.fault = s.fault ∧ t.finfo = s.finfo) ∨
      (t.cmdCnt = s.cmdCnt ∧ t.x = s.x ∧ t.fault ≠ 0 ∧ t.finfo.cmdWord = s.commandHalf))

/-- 60_exceptions.md R272 to R276, R278: a command that does not complete latched one of the faults listed for it; so
FPRANGE comes only from IDCT and SDQ, and NOP, UNPACK, FITSU, FITSS, SHL, SHR and SAR raise nothing. -/
def Obligations.FaultsByCommand : Prop :=
  ∀ (i : Instr) (s t : State), exec i s = .next t →
    t.cmdCnt = s.cmdCnt + 1 ∨ (t.fault, t.finfo.detail) ∈ mayRaise i

/-! ## Control and bit fields -/

/-- 45_control.md R265: NOP changes no register and counts; its only word is 0, and any other word with OPC 0 is
ILLEGAL with detail 0x01 or 0x02. -/
def Obligations.NopCompletes : Prop :=
  (∀ s : State, exec .nop s = .next (completed s.x s)) ∧
  (∀ cmd : Word, decode cmd = .ok .nop ↔ cmd = 0) ∧
  ∀ cmd : Word, cmd.extractLsb' 0 8 = 0 → cmd ≠ 0 →
    decode cmd = .error .reservedBit ∨ decode cmd = .error .unusedField

/-- 42_bitfield.md R184, R185: FITSU W and FITSS W have the rules' words, complete for every W and leave 1 or 0 in X2.
-/
def Obligations.FitPredicates : Prop :=
  (∀ w < 128, decode (BitVec.ofNat 64 (w * 2 ^ 8 + 0x10)) = .ok (.fitsu w) ∧
    decode (BitVec.ofNat 64 (w * 2 ^ 8 + 0x11)) = .ok (.fitss w)) ∧
  ∀ (w : ℕ) (s : State),
    exec (.fitsu w) s = .next (completed { s.x with x2 := if s.x.x1.toNat ≤ 2 ^ w - 1 then 1 else 0 } s) ∧
    exec (.fitss w) s = .next (completed { s.x with
      x2 := if 1 ≤ w ∧ -2 ^ (w - 1) ≤ s.x.x1.toInt ∧ s.x.x1.toInt ≤ 2 ^ (w - 1) - 1 then 1 else 0 } s)

/-- 42_bitfield.md R186, R187, R183: GETU and GETS have the rules' words and complete with the bits [L, L+W) of X0,
zero- or sign-extended, where the contract holds, and raise CONTRACT where it does not. -/
def Obligations.GetFields : Prop :=
  (∀ w < 128, ∀ l < 128, decode (BitVec.ofNat 64 (l * 2 ^ 16 + w * 2 ^ 8 + 0x12)) = .ok (.getu w l) ∧
    decode (BitVec.ofNat 64 (l * 2 ^ 16 + w * 2 ^ 8 + 0x13)) = .ok (.gets w l)) ∧
  ∀ (w l : ℕ) (s : State),
    (w + l ≤ 64 →
      exec (.getu w l) s = .next (completed { s.x with x2 := (s.x.x0.extractLsb' l w).setWidth 64 } s) ∧
      exec (.gets w l) s = .next (completed { s.x with x2 := (s.x.x0.extractLsb' l w).signExtend 64 } s)) ∧
    (64 < w → exec (.getu w l) s = .next (faultedWith 2 0x80 s) ∧ exec (.gets w l) s = .next (faultedWith 2 0x80 s)) ∧
    (w ≤ 64 → 64 < w + l →
      exec (.getu w l) s = .next (faultedWith 2 0x81 s) ∧ exec (.gets w l) s = .next (faultedWith 2 0x81 s))

/-- 42_bitfield.md R188, R189, R183: NEWU and NEWS have the rules' words and complete with X0's bits [L, L+W) replaced
by the low W bits of X1 where the contract holds and X1 fits; CONTRACT comes before OVERFLOW(1). -/
def Obligations.NewFields : Prop :=
  (∀ w < 128, ∀ l < 128, decode (BitVec.ofNat 64 (l * 2 ^ 16 + w * 2 ^ 8 + 0x14)) = .ok (.newu w l) ∧
    decode (BitVec.ofNat 64 (l * 2 ^ 16 + w * 2 ^ 8 + 0x15)) = .ok (.news w l)) ∧
  ∀ (w l : ℕ) (s : State),
    let unsignedFits := s.x.x1.toNat ≤ 2 ^ w - 1
    let signedFits := 1 ≤ w ∧ -2 ^ (w - 1) ≤ s.x.x1.toInt ∧ s.x.x1.toInt ≤ 2 ^ (w - 1) - 1
    let inserted (r : Word) := ∀ k < 64,
      r.getLsbD k = if l ≤ k ∧ k < l + w then s.x.x1.getLsbD (k - l) else s.x.x0.getLsbD k
    (w + l ≤ 64 → unsignedFits →
      ∃ r, inserted r ∧ exec (.newu w l) s = .next (completed { s.x with x2 := r } s)) ∧
    (w + l ≤ 64 → signedFits →
      ∃ r, inserted r ∧ exec (.news w l) s = .next (completed { s.x with x2 := r } s)) ∧
    (w + l ≤ 64 → ¬unsignedFits → exec (.newu w l) s = .next (faultedWith 3 1 s)) ∧
    (w + l ≤ 64 → ¬signedFits → exec (.news w l) s = .next (faultedWith 3 1 s)) ∧
    (64 < w → exec (.newu w l) s = .next (faultedWith 2 0x80 s) ∧ exec (.news w l) s = .next (faultedWith 2 0x80 s)) ∧
    (w ≤ 64 → 64 < w + l →
      exec (.newu w l) s = .next (faultedWith 2 0x81 s) ∧ exec (.news w l) s = .next (faultedWith 2 0x81 s))

/-- 42_bitfield.md R193, in command form: after NEWU (or NEWS) completes, moving X2 to X0 and running GETU (or GETS)
with the same W and L completes with X2 = the inserted X1. -/
def Obligations.FieldRoundTrip : Prop :=
  ∀ (w l : ℕ) (s t : State),
    (exec (.newu w l) s = .next t → t.cmdCnt = s.cmdCnt + 1 →
      ∃ u, exec (.getu w l) { t with x := { t.x with x0 := t.x.x2 } } = .next u ∧
        u.cmdCnt = t.cmdCnt + 1 ∧ u.x.x2 = s.x.x1) ∧
    (exec (.news w l) s = .next t → t.cmdCnt = s.cmdCnt + 1 →
      ∃ u, exec (.gets w l) { t with x := { t.x with x0 := t.x.x2 } } = .next u ∧
        u.cmdCnt = t.cmdCnt + 1 ∧ u.x.x2 = s.x.x1)

/-- 42_bitfield.md R190, R191, R192: the shifts have the rules' words and complete for every amount; from 64 on SHL
and SHR give 0 and SAR the sign's copies. -/
def Obligations.Shifts : Prop :=
  (decode 0x16 = .ok .shl ∧ decode 0x17 = .ok .shr ∧ decode 0x18 = .ok .sar) ∧
  ∀ s : State,
    let n := s.x.x1.toNat
    (exec .shl s = .next (completed { s.x with x2 := s.x.x0 <<< n } s) ∧
      exec .shr s = .next (completed { s.x with x2 := s.x.x0 >>> n } s) ∧
      exec .sar s = .next (completed { s.x with x2 := s.x.x0.sshiftRight n } s)) ∧
    (64 ≤ n →
      exec .shl s = .next (completed { s.x with x2 := 0 } s) ∧ exec .shr s = .next (completed { s.x with x2 := 0 } s) ∧
      exec .sar s = .next (completed { s.x with x2 := if s.x.x0.getLsbD 63 then 0xFFFFFFFFFFFFFFFF else 0 } s))

/-! ## The codeword -/

/-- 41_codeword.md R162: the word 0x08 is PACK, which completes with the six fields side by side in X6 where all fit,
and otherwise raises OVERFLOW with the register of the first field, from qA on, that does not. -/
def Obligations.PackResult : Prop :=
  decode 0x08 = .ok .pack ∧ ∀ s : State,
    let x := s.x
    let fits (r : Fin 8) : Prop :=
      if r = 0 then x.x0.toNat ≤ 511
      else if r ≤ 3 then -16 ≤ (x.get r).toInt ∧ (x.get r).toInt ≤ 15
      else (x.get r).toNat ≤ 15
    let word : BitVec 32 := x.x0.extractLsb' 0 9 ++ x.x1.extractLsb' 0 5 ++ x.x2.extractLsb' 0 5 ++
      x.x3.extractLsb' 0 5 ++ x.x4.extractLsb' 0 4 ++ x.x5.extractLsb' 0 4
    ((∀ r : Fin 8, r ≤ 5 → fits r) → exec .pack s = .next (completed { x with x6 := word.setWidth 64 } s)) ∧
    (∀ r : Fin 8, r ≤ 5 → ¬fits r → (∀ q < r, fits q) → exec .pack s = .next (faultedWith 3 (BitVec.ofNat 8 r.val) s))

/-- 41_codeword.md R163: the word 0x09 is UNPACK, which completes on every X6, whose bits 63:32 it ignores. -/
def Obligations.UnpackResult : Prop :=
  decode 0x09 = .ok .unpack ∧ ∀ s : State, exec .unpack s = .next (completed { s.x with
    x0 := (s.x.x6.extractLsb' 23 9).setWidth 64
    x1 := (s.x.x6.extractLsb' 18 5).signExtend 64
    x2 := (s.x.x6.extractLsb' 13 5).signExtend 64
    x3 := (s.x.x6.extractLsb' 8 5).signExtend 64
    x4 := (s.x.x6.extractLsb' 4 4).setWidth 64
    x5 := (s.x.x6.extractLsb' 0 4).setWidth 64 } s)

/-- 41_codeword.md R164: UNPACK after a PACK that completed gives X0..X5 back, and PACK after any UNPACK completes and
gives the codeword back, zero-extended; the qB..qD that QUANT produces lie in -15..15. -/
def Obligations.PackUnpackBijection : Prop :=
  (∀ s t : State, exec .pack s = .next t → t.cmdCnt = s.cmdCnt + 1 →
    ∃ u, exec .unpack t = .next u ∧ ∀ r : Fin 8, r ≤ 5 → u.x.get r = s.x.get r) ∧
  (∀ s t : State, exec .unpack s = .next t →
    exec .pack t = .next (completed { t.x with x6 := (s.x.x6.extractLsb' 0 32).setWidth 64 } t)) ∧
  (∀ s t : State, exec .quant s = .next t → t.cmdCnt = s.cmdCnt + 1 →
    ∀ r ∈ ([1, 2, 3] : List (Fin 8)), -15 ≤ (t.x.get r).toInt ∧ (t.x.get r).toInt ≤ 15)

/-- 41_codeword.md R170, R171: a codeword's stream bytes are its bytes, most significant first, and reading them gives
it back and leaves the rest; fewer than four bytes give no codeword. -/
def Obligations.StreamByteOrder : Prop :=
  (∀ cw : BitVec 32, codewordBytes cw =
    [cw.extractLsb' 24 8, cw.extractLsb' 16 8, cw.extractLsb' 8 8, cw.extractLsb' 0 8]) ∧
  (∀ (cw : BitVec 32) (rest : List Byte), codewordOfBytes (codewordBytes cw ++ rest) = some (cw, rest)) ∧
  (∀ bytes : List Byte, bytes.length < 4 → codewordOfBytes bytes = none)

/-! ## The colour-space converter -/

/-- 40_converter.md R142: the word 0x01 is RGB2YPP, which completes for every denominator but 0, with the exact
forward matrix, clamped, then rounded once; denominator 0 raises DIVZERO(3). -/
def Obligations.Rgb2yppResult : Prop :=
  decode 0x01 = .ok .rgb2ypp ∧ ∀ s : State,
    let d : ℚ := s.x.x3.toNat
    let r : ℚ := s.x.x0.toNat / d
    let g : ℚ := s.x.x1.toNat / d
    let b : ℚ := s.x.x2.toNat / d
    let y := 299 / 1000 * r + 587 / 1000 * g + 114 / 1000 * b
    let pb := -(168736 / 1000000) * r - 331264 / 1000000 * g + 1 / 2 * b
    let pr := 1 / 2 * r - 418688 / 1000000 * g - 81312 / 1000000 * b
    (s.x.x3 ≠ 0 → exec .rgb2ypp s = .next (completed { s.x with
      x0 := rnd64Bits (max 0 (min y 1))
      x1 := rnd64Bits (max (-1 / 2) (min pb (1 / 2)))
      x2 := rnd64Bits (max (-1 / 2) (min pr (1 / 2))) } s)) ∧
    (s.x.x3 = 0 → exec .rgb2ypp s = .next (faultedWith 5 3 s))

/-- 40_converter.md R142, its corner case: a gray pixel gives Pb = Pr = +0 exactly, whatever the nonzero denominator.
-/
def Obligations.GrayHasNoChroma : Prop :=
  ∀ s t : State, s.x.x0 = s.x.x1 → s.x.x1 = s.x.x2 → s.x.x3 ≠ 0 → exec .rgb2ypp s = .next t →
    t.x.x1 = 0 ∧ t.x.x2 = 0

/-- 40_converter.md R143: the inverse coefficients undo the forward matrix exactly, in both orders. -/
def Obligations.InverseMatrixIsExact : Prop :=
  (∀ r g b : ℚ,
    redOf (lumaOf r g b) (pbOf r g b) (prOf r g b) = r ∧ greenOf (lumaOf r g b) (pbOf r g b) (prOf r g b) = g ∧
    blueOf (lumaOf r g b) (pbOf r g b) (prOf r g b) = b) ∧
  (∀ y pb pr : ℚ,
    lumaOf (redOf y pb pr) (greenOf y pb pr) (blueOf y pb pr) = y ∧
    pbOf (redOf y pb pr) (greenOf y pb pr) (blueOf y pb pr) = pb ∧
    prOf (redOf y pb pr) (greenOf y pb pr) (blueOf y pb pr) = pr)

/-- 40_converter.md R144: the word 0x02 is YPP2RGB, which completes on every finite Y, Pb, Pr and every denominator,
with the exact inverse matrix, scaled, clamped to 0..d and truncated; the first non-finite operand raises NONFINITE.
-/
def Obligations.Ypp2rgbResult : Prop :=
  decode 0x02 = .ok .ypp2rgb ∧ ∀ s : State,
    let d : ℚ := s.x.x3.toNat
    let y := f64Value s.x.x0
    let pb := f64Value s.x.x1
    let pr := f64Value s.x.x2
    let channel (v : ℚ) : Word := BitVec.ofInt 64 ⌊max 0 (min (v * d) d)⌋
    (firstNonFinite s.x [0, 1, 2] = none → exec .ypp2rgb s = .next (completed { s.x with
      x0 := channel (y - 1125 / 922967728 * pb + 1294000375 / 922967728 * pr)
      x1 := channel (y - 317626125 / 922967728 * pb - 659124625 / 922967728 * pr)
      x2 := channel (y + 1635498875 / 922967728 * pb + 375 / 922967728 * pr) } s)) ∧
    (∀ r, firstNonFinite s.x [0, 1, 2] = some r → exec .ypp2rgb s = .next (faultedWith 4 (BitVec.ofNat 8 r.val) s))

/-! ## The DCT-2 kernel and the quantizer -/

/-- 43_dct_quant.md R212: the word 0x20 is DCT, which completes on every finite block (FPRANGE cannot occur), each
coefficient exact and rounded once; the first non-finite sample raises NONFINITE. -/
def Obligations.DctResult : Prop :=
  decode 0x20 = .ok .dct ∧ ∀ s : State,
    let y1 := f64Value s.x.x0
    let y2 := f64Value s.x.x1
    let y3 := f64Value s.x.x2
    let y4 := f64Value s.x.x3
    (firstNonFinite s.x [0, 1, 2, 3] = none → exec .dct s = .next (completed { s.x with
      x0 := rnd64Bits ((y1 + y2 + y3 + y4) / 4), x1 := rnd64Bits ((y1 - y2 + y3 - y4) / 4)
      x2 := rnd64Bits ((y1 + y2 - y3 - y4) / 4), x3 := rnd64Bits ((y1 - y2 - y3 + y4) / 4) } s)) ∧
    (∀ r, firstNonFinite s.x [0, 1, 2, 3] = some r → exec .dct s = .next (faultedWith 4 (BitVec.ofNat 8 r.val) s))

/-- 43_dct_quant.md R213: the word 0x21 is IDCT, which completes on finite coefficients whose four exact results are
below the overflow threshold; the first result at or above it raises FPRANGE, and the first non-finite coefficient
NONFINITE. -/
def Obligations.IdctResult : Prop :=
  decode 0x21 = .ok .idct ∧ ∀ s : State,
    let a := f64Value s.x.x0
    let b := f64Value s.x.x1
    let c := f64Value s.x.x2
    let d := f64Value s.x.x3
    let out : List ℚ := [a + b + c + d, a - b + c - d, a + b - c - d, a - b - c + d]
    let fits (q : ℚ) : Prop := |q| < 2 ^ 1024 - 2 ^ 970
    (firstNonFinite s.x [0, 1, 2, 3] = none → (∀ q ∈ out, fits q) → exec .idct s = .next (completed { s.x with
      x0 := rnd64Bits (a + b + c + d), x1 := rnd64Bits (a - b + c - d)
      x2 := rnd64Bits (a + b - c - d), x3 := rnd64Bits (a - b - c + d) } s)) ∧
    (firstNonFinite s.x [0, 1, 2, 3] = none → ∀ (k : ℕ) (q : ℚ), out[k]? = some q → ¬fits q →
      (∀ p ∈ out.take k, fits p) → exec .idct s = .next (faultedWith 6 (BitVec.ofNat 8 k) s)) ∧
    (∀ r, firstNonFinite s.x [0, 1, 2, 3] = some r → exec .idct s = .next (faultedWith 4 (BitVec.ofNat 8 r.val) s))

/-- 43_dct_quant.md R214: the word 0x22 is AVG4, which completes on every finite operands with their exact average
rounded once. -/
def Obligations.Avg4Result : Prop :=
  decode 0x22 = .ok .avg4 ∧ ∀ s : State,
    (firstNonFinite s.x [0, 1, 2, 3] = none → exec .avg4 s = .next (completed { s.x with
      x0 := rnd64Bits ((f64Value s.x.x0 + f64Value s.x.x1 + f64Value s.x.x2 + f64Value s.x.x3) / 4) } s)) ∧
    (∀ r, firstNonFinite s.x [0, 1, 2, 3] = some r → exec .avg4 s = .next (faultedWith 4 (BitVec.ofNat 8 r.val) s))

/-- 43_dct_quant.md R211: over the rationals the transforms undo each other exactly. -/
def Obligations.TransformPairIsExact : Prop :=
  ∀ y : Quad, dctInverse (dctForward y) = y ∧ dctForward (dctInverse y) = y

/-- 43_dct_quant.md R216: the word 0x23 is QUANT, which completes on finite operands whose DC value an unsigned 64-bit
register holds: the exact transform, the DC value rounded, the AC values rounded and clamped to -15..15, the chroma
through the table; OVERFLOW(0) otherwise, and NONFINITE for the first non-finite operand. -/
def Obligations.QuantResult : Prop :=
  decode 0x23 = .ok .quant ∧ ∀ s : State,
    let y1 := f64Value s.x.x0
    let y2 := f64Value s.x.x1
    let y3 := f64Value s.x.x2
    let y4 := f64Value s.x.x3
    let qA := roundHA (511 * ((y1 + y2 + y3 + y4) / 4))
    let ac (c : ℚ) : Word := BitVec.ofInt 64 (max (-15) (min (roundHA (50 * c)) 15))
    let operands : List (Fin 8) := [0, 1, 2, 3, 4, 5]
    (firstNonFinite s.x operands = none → 0 ≤ qA → qA < 2 ^ 64 → exec .quant s = .next (completed { s.x with
      x0 := BitVec.ofInt 64 qA, x1 := ac ((y1 - y2 + y3 - y4) / 4)
      x2 := ac ((y1 + y2 - y3 - y4) / 4), x3 := ac ((y1 - y2 - y3 + y4) / 4)
      x4 := BitVec.ofNat 64 (chromaIndex (f64Value s.x.x4))
      x5 := BitVec.ofNat 64 (chromaIndex (f64Value s.x.x5)) } s)) ∧
    (firstNonFinite s.x operands = none → (qA < 0 ∨ 2 ^ 64 ≤ qA) → exec .quant s = .next (faultedWith 3 0 s)) ∧
    (∀ r, firstNonFinite s.x operands = some r → exec .quant s = .next (faultedWith 4 (BitVec.ofNat 8 r.val) s))

/-- 43_dct_quant.md R217: the word 0x24 is DEQUANT, which completes on every record whose chroma indices are at most
15 (FPRANGE cannot occur): the exact inverse transform of qA/511 and qB..qD/50, rounded once, and the chroma through
the table; CONTRACT(4) or (5) else. -/
def Obligations.DequantResult : Prop :=
  decode 0x24 = .ok .dequant ∧ ∀ s : State,
    let a : ℚ := s.x.x0.toNat / 511
    let b : ℚ := s.x.x1.toInt / 50
    let c : ℚ := s.x.x2.toInt / 50
    let d : ℚ := s.x.x3.toInt / 50
    (s.x.x4.toNat ≤ 15 → s.x.x5.toNat ≤ 15 → exec .dequant s = .next (completed { s.x with
      x0 := rnd64Bits (a + b + c + d), x1 := rnd64Bits (a - b + c - d)
      x2 := rnd64Bits (a + b - c - d), x3 := rnd64Bits (a - b - c + d)
      x4 := chromaOf (s.x.x4.setWidth 4), x5 := chromaOf (s.x.x5.setWidth 4) } s)) ∧
    (15 < s.x.x4.toNat → exec .dequant s = .next (faultedWith 2 4 s)) ∧
    (s.x.x4.toNat ≤ 15 → 15 < s.x.x5.toNat → exec .dequant s = .next (faultedWith 2 5 s))

/-! ## The scaler -/

/-- 44_scaler.md R241: the word 0x28 is SQRND, which completes where the rounded exact product fits a signed 64-bit
integer; OVERFLOW(2) else. -/
def Obligations.SqrndResult : Prop :=
  decode 0x28 = .ok .sqrnd ∧ ∀ s : State,
    let q := roundHA (f64Value s.x.x0 * f64Value s.x.x1)
    (firstNonFinite s.x [0, 1] = none → -2 ^ 63 ≤ q → q < 2 ^ 63 →
      exec .sqrnd s = .next (completed { s.x with x2 := BitVec.ofInt 64 q } s)) ∧
    (firstNonFinite s.x [0, 1] = none → (q < -2 ^ 63 ∨ 2 ^ 63 ≤ q) → exec .sqrnd s = .next (faultedWith 3 2 s)) ∧
    (∀ r, firstNonFinite s.x [0, 1] = some r → exec .sqrnd s = .next (faultedWith 4 (BitVec.ofNat 8 r.val) s))

/-- 44_scaler.md R242: SQCLAMP W has the rule's word and completes for W up to 64 on finite operands, with the rounded
product clamped to the symmetric W-bit range, which is 0 alone for W = 0; CONTRACT(0x80) comes before NONFINITE. -/
def Obligations.SqclampResult : Prop :=
  (∀ w < 128, decode (BitVec.ofNat 64 (w * 2 ^ 8 + 0x29)) = .ok (.sqclamp w)) ∧
  ∀ (w : ℕ) (s : State),
    let q := roundHA (f64Value s.x.x0 * f64Value s.x.x1)
    let bound : ℤ := if w = 0 then 0 else 2 ^ (w - 1) - 1
    (w ≤ 64 → firstNonFinite s.x [0, 1] = none →
      exec (.sqclamp w) s = .next (completed { s.x with x2 := BitVec.ofInt 64 (max (-bound) (min q bound)) } s)) ∧
    (64 < w → exec (.sqclamp w) s = .next (faultedWith 2 0x80 s)) ∧
    (w ≤ 64 → ∀ r, firstNonFinite s.x [0, 1] = some r →
      exec (.sqclamp w) s = .next (faultedWith 4 (BitVec.ofNat 8 r.val) s))

/-- 44_scaler.md R243: the word 0x2A is SDQ, which completes for a finite nonzero scale where the exact quotient is
below the overflow threshold, rounded once; DIVZERO(1) for +0 and -0, FPRANGE(2) above, NONFINITE(1) for a non-finite
scale. -/
def Obligations.SdqResult : Prop :=
  decode 0x2A = .ok .sdq ∧ ∀ s : State,
    let n : ℚ := s.x.x0.toInt
    let scale := f64Value s.x.x1
    (isFinite s.x.x1 = true → scale ≠ 0 → |n / scale| < 2 ^ 1024 - 2 ^ 970 →
      exec .sdq s = .next (completed { s.x with x2 := rnd64Bits (n / scale) } s)) ∧
    (isFinite s.x.x1 = true → scale ≠ 0 → 2 ^ 1024 - 2 ^ 970 ≤ |n / scale| →
      exec .sdq s = .next (faultedWith 6 2 s)) ∧
    (s.x.x1 = 0x0000000000000000 ∨ s.x.x1 = 0x8000000000000000 → exec .sdq s = .next (faultedWith 5 1 s)) ∧
    (isFinite s.x.x1 = true → scale = 0 → s.x.x1 = 0x0000000000000000 ∨ s.x.x1 = 0x8000000000000000) ∧
    (isFinite s.x.x1 = false → exec .sdq s = .next (faultedWith 4 1 s))

/-- 44_scaler.md R244: the word 0x2B is SATTRUNC, which completes on every finite value and every denominator. -/
def Obligations.SattruncResult : Prop :=
  decode 0x2B = .ok .sattrunc ∧ ∀ s : State,
    let d : ℚ := s.x.x1.toNat
    (isFinite s.x.x0 = true → exec .sattrunc s = .next (completed { s.x with
      x2 := BitVec.ofInt 64 ⌊max 0 (min (f64Value s.x.x0 * d) d)⌋ } s)) ∧
    (isFinite s.x.x0 = false → exec .sattrunc s = .next (faultedWith 4 0 s))

/-- 44_scaler.md R245: where QUANT completes and a coefficient is exactly representable as p, SQRND of p by 511.0
gives QUANT's qA (while it fits 63 bits) and SQCLAMP 5 of p by 50.0 gives QUANT's qB. -/
def Obligations.ScalerAgreesWithQuantizer : Prop :=
  ∀ (s t u : State) (p : Word), exec .quant s = .next t → t.cmdCnt = s.cmdCnt + 1 → isFinite p = true → u.x.x0 = p →
    (f64Value p = (f64Value s.x.x0 + f64Value s.x.x1 + f64Value s.x.x2 + f64Value s.x.x3) / 4 →
      u.x.x1 = 0x407FF00000000000 → t.x.x0.toNat < 2 ^ 63 →
      exec .sqrnd u = .next (completed { u.x with x2 := t.x.x0 } u)) ∧
    (f64Value p = (f64Value s.x.x0 - f64Value s.x.x1 + f64Value s.x.x2 - f64Value s.x.x3) / 4 →
      u.x.x1 = 0x4049000000000000 →
      exec (.sqclamp 5) u = .next (completed { u.x with x2 := t.x.x1 } u))

/-! ## Numbers -/

/-- 00_scope.md R18: rnd64 gives a finite pattern at least as near as any other, the even fraction where another is as
near; a zero result is +0, from a nonzero q too (92_eei_decisions.md D4, 43_dct_quant.md R212, read as log 6 says);
and it raises FPRANGE with the output's index exactly at and above 2^1024 - 2^970. -/
def Obligations.Rnd64IsNearest : Prop :=
  ∀ q : ℚ,
    (|q| < 2 ^ 1024 - 2 ^ 970 →
      (∀ i : Fin 8, rnd64 i q = .ok (rnd64Bits q)) ∧ isFinite (rnd64Bits q) = true ∧
      (∀ p : Word, isFinite p = true → |f64Value (rnd64Bits q) - q| ≤ |f64Value p - q|) ∧
      (∀ p : Word, isFinite p = true → f64Value p ≠ f64Value (rnd64Bits q) →
        |f64Value (rnd64Bits q) - q| = |f64Value p - q| → (rnd64Bits q).getLsbD 0 = false) ∧
      (f64Value (rnd64Bits q) = 0 → rnd64Bits q = 0)) ∧
    (2 ^ 1024 - 2 ^ 970 ≤ |q| → ∀ i : Fin 8, rnd64 i q = .error ⟨.fprange, BitVec.ofNat 8 i.val⟩)

/-- 00_scope.md R16, R18: rounding a value that a finite pattern other than -0 holds gives that pattern back. -/
def Obligations.Rnd64KeepsRepresentable : Prop :=
  ∀ p : Word, isFinite p = true → p ≠ 0x8000000000000000 → rnd64Bits (f64Value p) = p

/-- 00_scope.md R19: roundHA q is sign(q) floor(|q| + 1/2): a nearest integer, the one away from zero at a tie. -/
def Obligations.RoundHAIsNearest : Prop :=
  ∀ q : ℚ, roundHA q = (SignType.sign q : ℤ) * ⌊|q| + 1 / 2⌋ ∧
    |(roundHA q : ℚ) - q| ≤ 1 / 2 ∧ (|(roundHA q : ℚ) - q| = 1 / 2 → |q| < |(roundHA q : ℚ)|) ∧
    roundHA (-q) = -roundHA q

/-- 00_scope.md R20, R21: trunc rounds toward zero, and clamp is idempotent and stays within its bounds. -/
def Obligations.TruncAndClamp : Prop :=
  (∀ q : ℚ, |(trunc q : ℚ)| ≤ |q| ∧ |q| - |(trunc q : ℚ)| < 1 ∧ 0 ≤ (trunc q : ℚ) * q) ∧
  (∀ v lo hi : ℚ, lo ≤ hi → clamp v lo hi = max lo (min v hi) ∧ clamp (clamp v lo hi) lo hi = clamp v lo hi) ∧
  (∀ v lo hi : ℤ, lo ≤ hi → clamp v lo hi = max lo (min v hi) ∧ clamp (clamp v lo hi) lo hi = clamp v lo hi)

/-- 00_scope.md R11: whatever the chroma table is, CHROMA_INDEX is non-decreasing with results below 2^64, and
CHROMA_OF gives finite patterns. -/
def Obligations.ChromaTableContract : Prop :=
  (∀ v w : ℚ, v ≤ w → chromaIndex v ≤ chromaIndex w) ∧ (∀ v : ℚ, chromaIndex v < 2 ^ 64) ∧
  (∀ i : BitVec 4, isFinite (chromaOf i) = true)

/-! ## The register port -/

/-- 45_control.md R260: a cycle's write to CMD is ignored while faulted, BUSY while busy, accepted otherwise, whatever
the word; in the cycle in which the previous command completes it sees that completion first. -/
def Obligations.CommandWriteOutcome : Prop :=
  ∀ (s : State) (v : Word), s.nextPins.writes 0x03 v = true →
    let accepted (t : State) : State :=
      { t with inflight := some ⟨v, Config.lat t.instNo (v.extractLsb' 0 8)⟩, cmdLast := v.extractLsb' 0 32 }
    (s.inflight = none → s.fault ≠ 0 → step s = .next (afterCycle s)) ∧
    (∀ cmd n, s.fault = 0 → s.inflight = some ⟨cmd, n + 2⟩ → step s = .next (faultedWith 7 0x03 (afterCycle s))) ∧
    (s.fault = 0 → s.inflight = none → step s = .next (accepted (afterCycle s))) ∧
    (∀ cmd t, s.inflight = some ⟨cmd, 1⟩ → engineEdge exec (afterCycle s) = .next t →
      (t.fault = 0 → step s = .next (accepted t)) ∧ (t.fault ≠ 0 → step s = .next t))

/-- 45_control.md R264, 60_exceptions.md R277: a write to CMD or a data register while a command is in flight, before
its last cycle, has no effect of its own, discards the command and latches BUSY with the in-flight low word and the
index; no other access does: a read, and a write elsewhere, leave the command counting (a soft reset discards it). -/
def Obligations.BusyWriteAborts : Prop :=
  ∀ (s t : State) (cmd : Word) (n : ℕ), s.inflight = some ⟨cmd, n + 2⟩ → s.fault = 0 → s.nextPins.rstN = true →
    step s = .next t →
    (s.nextPins.performs = true → s.nextPins.hWe = true → guardedIndex s.nextPins.hIdx = true →
      t = { afterCycle s with
        fault := 7, finfo := ⟨cmd.extractLsb' 0 32, s.nextPins.hIdx⟩, inflight := none }) ∧
    (s.nextPins.performs = true → s.nextPins.hWe = true → guardedIndex s.nextPins.hIdx = false →
      s.nextPins.hIdx ≠ 0x01 → t = { afterCycle s with inflight := some ⟨cmd, n + 1⟩ }) ∧
    (s.nextPins.performs = true → s.nextPins.hWe = true → s.nextPins.hIdx = 0x01 →
      t = if s.nextPins.hWdata.getLsbD 1 then { State.reset with port := s.port.tail, instNo := s.instNo }
        else { afterCycle s with inflight := some ⟨cmd, n + 1⟩, fie := s.nextPins.hWdata.getLsbD 0 }) ∧
    (s.nextPins.performs = true → s.nextPins.hWe = false → t.inflight = some ⟨cmd, n + 1⟩ ∧ t.fault = 0)

/-- 20_memory.md R81: a read returns the register's value on h_rdata and has no side effect, the values of X0..X7
before the command while one is in flight; reserved indices return 0. -/
def Obligations.ReadsHaveNoSideEffect : Prop :=
  ∀ (s : State) (idx : Byte), s.nextPins.reads idx = true → (∀ f, s.inflight = some f → 2 ≤ f.left) →
    ∃ v : Word, step s = .next { afterCycle s with
        inflight := s.inflight.map fun f => ⟨f.cmd, f.left - 1⟩, hRdata := some v } ∧
      (idx = 0x00 → v = 0x0000000144435432) ∧
      (idx = 0x01 → v = if s.fie then 1 else 0) ∧
      (idx = 0x02 → v = s.statusWord) ∧
      (idx = 0x03 → v = s.cmdLast.setWidth 64) ∧
      (idx = 0x04 → v = (s.finfo.detail ++ s.finfo.cmdWord).setWidth 64) ∧
      (idx = 0x05 → v = s.cmdCnt.setWidth 64) ∧
      (∀ i : Fin 8, idx.toNat = 8 + i.val → v = s.x.get i) ∧
      (idx = 0x06 ∨ idx = 0x07 ∨ 0x10 ≤ idx.toNat → v = 0)

/-- 20_memory.md R82, 10_state.md R46, R51, R52, R57, 45_control.md R266: a write performed in a cycle with nothing in
flight, in the idle and the faulted state alike: a data register takes the word, CTRL takes FIE or resets every
register, a reserved or read-only index ignores it, and CMD accepts it or, while faulted, ignores it. Nothing else
changes. -/
def Obligations.WritesWithNothingInFlight : Prop :=
  ∀ (s : State) (idx : Byte) (v : Word), s.inflight = none → s.nextPins.writes idx v = true →
    (∀ k : Fin 8, idx.toNat = 8 + k.val → step s = .next { afterCycle s with x := s.x.set k v }) ∧
    (idx = 0x01 → v.getLsbD 1 = false → step s = .next { afterCycle s with fie := v.getLsbD 0 }) ∧
    (idx = 0x01 → v.getLsbD 1 = true → step s = .next { State.reset with port := s.port.tail, instNo := s.instNo }) ∧
    (idx = 0x00 ∨ idx = 0x02 ∨ (0x04 ≤ idx.toNat ∧ idx.toNat ≤ 0x07) ∨ 0x10 ≤ idx.toNat →
      step s = .next (afterCycle s)) ∧
    (idx = 0x03 → s.fault ≠ 0 → step s = .next (afterCycle s)) ∧
    (idx = 0x03 → s.fault = 0 → step s = .next { afterCycle s with
      inflight := some ⟨v, Config.lat s.instNo (v.extractLsb' 0 8)⟩, cmdLast := v.extractLsb' 0 32 })

/-- 10_state.md R53, R44, R58: STATUS bit by bit: BUSY, IRQ, FAULT in 15:8, every other bit 0. -/
def Obligations.StatusWordBits : Prop :=
  ∀ (s : State) (k : ℕ), (regRead 0x02 s).getLsbD k =
    if k = 0 then s.inflight.isSome else if k = 1 then s.fie && s.fault != 0
    else if 8 ≤ k ∧ k < 16 then s.fault.getLsbD (k - 8) else false

/-- 10_state.md R51, R52: CTRL reads FIE in bit 0 and 0 elsewhere; a write to CTRL, in every state, sets FIE from bit
0; with bit 1 set it puts every register into its reset value, FIE included, and discards an in-flight command. -/
def Obligations.CtrlWriteAndSoftReset : Prop :=
  (∀ s : State, regRead 0x01 s = if s.fie then 1 else 0) ∧
  ∀ (s : State) (v : Word),
    (v.getLsbD 1 = false → regWrite 0x01 v s = { s with fie := v.getLsbD 0 }) ∧
    (v.getLsbD 1 = true → regWrite 0x01 v s = { State.reset with port := s.port, hRdata := s.hRdata, instNo := s.instNo })

/-- 10_state.md R57: reserved indices read 0, and writes to them and to the read-only indices are ignored. -/
def Obligations.ReservedIndices : Prop :=
  ∀ (s : State) (idx : Byte) (v : Word),
    (idx = 0x06 ∨ idx = 0x07 ∨ 0x10 ≤ idx.toNat → regRead idx s = 0 ∧ regWrite idx v s = s) ∧
    (idx = 0x00 ∨ idx = 0x02 ∨ idx = 0x04 ∨ idx = 0x05 → regWrite idx v s = s)

/-- 60_exceptions.md R282: in the faulted state, out of reset, a cycle keeps the fault, FINFO, CMDCNT, CMDLAST and an
empty INFLIGHT, a CMD write included; a write to a data register is performed, a read returns the current value, and a
CTRL write sets FIE, or resets. -/
def Obligations.FaultedStateHolds : Prop :=
  ∀ s t : State, s.fault ≠ 0 → s.inflight = none → s.nextPins.rstN = true → step s = .next t →
    let writes := s.nextPins.performs = true ∧ s.nextPins.hWe = true
    let soft := writes ∧ s.nextPins.hIdx = 0x01 ∧ s.nextPins.hWdata.getLsbD 1 = true
    (soft → t = { State.reset with port := s.port.tail, instNo := s.instNo }) ∧
    (¬soft →
      t.fault = s.fault ∧ t.finfo = s.finfo ∧ t.cmdCnt = s.cmdCnt ∧ t.cmdLast = s.cmdLast ∧ t.inflight = none ∧
      (∀ i : Fin 8, t.x.get i =
        if writes ∧ s.nextPins.hIdx.toNat = 8 + i.val then s.nextPins.hWdata else s.x.get i) ∧
      (t.fie = if writes ∧ s.nextPins.hIdx = 0x01 then s.nextPins.hWdata.getLsbD 0 else s.fie) ∧
      (∀ idx, s.nextPins.reads idx = true → t.hRdata = some (regRead idx s)))

/-- 20_memory.md R91: the access of the cycle in which a command completes, with its results or with a fault, sees the
completion and BUSY = 0: a read returns the new value, a CMD write is accepted if the completion succeeded and ignored
if it faulted, an X write overwrites a result, a CTRL write sets FIE or resets, and any other write changes nothing.
-/
def Obligations.CompletionBeforeAccess : Prop :=
  ∀ (s t : State) (cmd : Word), s.inflight = some ⟨cmd, 1⟩ → s.fault = 0 →
    ((∃ i, decode cmd = .ok i ∧ exec i (afterCycle s) = .next t) ∨
      ∃ e, decode cmd = .error e ∧ t = faultedWith 1 e.detail (afterCycle s)) →
    t.busy = false ∧
    (∀ idx, s.nextPins.reads idx = true → step s = .next { t with hRdata := some (regRead idx t) }) ∧
    (∀ v, s.nextPins.writes 0x03 v = true → t.fault = 0 → step s = .next { t with
      inflight := some ⟨v, Config.lat t.instNo (v.extractLsb' 0 8)⟩, cmdLast := v.extractLsb' 0 32 }) ∧
    (∀ v, s.nextPins.writes 0x03 v = true → t.fault ≠ 0 → step s = .next t) ∧
    (∀ (k : Fin 8) (v : Word), s.nextPins.writes (BitVec.ofNat 8 (8 + k.val)) v = true →
      step s = .next { t with x := t.x.set k v }) ∧
    (∀ v, s.nextPins.writes 0x01 v = true → step s = .next (if v.getLsbD 1
      then { State.reset with port := t.port, instNo := t.instNo } else { t with fie := v.getLsbD 0 })) ∧
    (∀ idx v, s.nextPins.writes idx v = true → idx ≠ 0x01 → guardedIndex idx = false → step s = .next t)

/-- 10_state.md R56: in every state that meets the invariant, a cycle in which a command completes without a fault raises
CMDCNT by one, modulo 2^32, a reset leaves 0, and every other cycle leaves CMDCNT as it was, so faulted, aborted, ignored and
discarded commands do not count; it reads in bits 31:0, and a write to it is ignored. -/
def Obligations.CompletionsCounted : Prop :=
  (∀ s t : State, s.Inv → step s = .next t →
    let resets := s.nextPins.rstN = false ∨ (s.nextPins.performs = true ∧ s.nextPins.hWe = true ∧
      s.nextPins.hIdx = 0x01 ∧ s.nextPins.hWdata.getLsbD 1 = true)
    let completes := ∃ cmd i u, s.inflight = some ⟨cmd, 1⟩ ∧ decode cmd = .ok i ∧
      exec i (afterCycle s) = .next u ∧ u.fault = 0
    (resets → t.cmdCnt = 0) ∧ (¬resets → completes → t.cmdCnt = s.cmdCnt + 1) ∧
      (¬resets → ¬completes → t.cmdCnt = s.cmdCnt)) ∧
  ∀ (s : State) (v : Word), regRead 0x05 s = s.cmdCnt.setWidth 64 ∧ regWrite 0x05 v s = s

/-- 60_exceptions.md R285: while a fault is held, writing FIE = 0 drops irq and leaves the fault, writing FIE = 1
raises irq again; without a fault irq is 0. -/
def Obligations.InterruptFollowsEnable : Prop :=
  ∀ s : State,
    (s.fault ≠ 0 → (regWrite 0x01 0 s).irq = false ∧ (regWrite 0x01 0 s).fault = s.fault ∧
      (regWrite 0x01 1 s).irq = true ∧ (regWrite 0x01 1 s).fault = s.fault) ∧
    (s.fault = 0 → s.irq = false)

/-! ## Several instances -/

/-- 20_memory.md R96, 60_exceptions.md R295: a system of instances, at least one, answers a next system, in which each
instance is what its own step makes of its own state and port, and keeps its number. That all instances take a clock
edge at once is the model's choice (log 14), and so is the number (log 19). -/
def Obligations.InstancesShareNothing : Prop :=
  ∀ y : System, ∃ z : System, y.step = .next z ∧ z.instances.length = y.instances.length ∧
    (y.numbered = true → z.numbered = true) ∧
    ∀ (n : ℕ) (s : State), y.instances[n]? = some s →
      ∃ t : State, z.instances[n]? = some t ∧ step s = .next t ∧ t.instNo = s.instNo
end

