-- ==== Sys2Proof/Laws/State.lean ====
section
/-! SUPPORT. One lemma per field per update of State, true by rfl, so that no later proof unfolds a record update. -/

-- One theorem at a time: in the package as one text, a thread for each theorem passes the checker's memory limit.
set_option Elab.async false

namespace Sys2Proof.Machine

@[simp] theorem complete_x (r : Regs) (s : State) : (complete r s).x = r := rfl
@[simp] theorem complete_fie (r : Regs) (s : State) : (complete r s).fie = s.fie := rfl
@[simp] theorem complete_fault (r : Regs) (s : State) : (complete r s).fault = s.fault := rfl
@[simp] theorem complete_finfo (r : Regs) (s : State) : (complete r s).finfo = s.finfo := rfl
@[simp] theorem complete_cmdCnt (r : Regs) (s : State) : (complete r s).cmdCnt = s.cmdCnt + 1 := rfl
@[simp] theorem complete_cmdLast (r : Regs) (s : State) : (complete r s).cmdLast = s.cmdLast := rfl
@[simp] theorem complete_inflight (r : Regs) (s : State) : (complete r s).inflight = none := rfl
@[simp] theorem complete_port (r : Regs) (s : State) : (complete r s).port = s.port := rfl
@[simp] theorem complete_hRdata (r : Regs) (s : State) : (complete r s).hRdata = s.hRdata := rfl
@[simp] theorem complete_instNo (r : Regs) (s : State) : (complete r s).instNo = s.instNo := rfl

@[simp] theorem latchFault_x (k : FaultKind) (d : Byte) (s : State) : (latchFault k d s).x = s.x := rfl
@[simp] theorem latchFault_fie (k : FaultKind) (d : Byte) (s : State) : (latchFault k d s).fie = s.fie := rfl
@[simp] theorem latchFault_fault (k : FaultKind) (d : Byte) (s : State) : (latchFault k d s).fault = k.code := rfl
@[simp] theorem latchFault_finfo (k : FaultKind) (d : Byte) (s : State) : (latchFault k d s).finfo = ⟨s.commandHalf, d⟩ := rfl
@[simp] theorem latchFault_cmdCnt (k : FaultKind) (d : Byte) (s : State) : (latchFault k d s).cmdCnt = s.cmdCnt := rfl
@[simp] theorem latchFault_cmdLast (k : FaultKind) (d : Byte) (s : State) : (latchFault k d s).cmdLast = s.cmdLast := rfl
@[simp] theorem latchFault_inflight (k : FaultKind) (d : Byte) (s : State) : (latchFault k d s).inflight = none := rfl
@[simp] theorem latchFault_port (k : FaultKind) (d : Byte) (s : State) : (latchFault k d s).port = s.port := rfl
@[simp] theorem latchFault_hRdata (k : FaultKind) (d : Byte) (s : State) : (latchFault k d s).hRdata = s.hRdata := rfl
@[simp] theorem latchFault_instNo (k : FaultKind) (d : Byte) (s : State) : (latchFault k d s).instNo = s.instNo := rfl

@[simp] theorem resetRegisters_x (s : State) : (resetRegisters s).x = State.reset.x := rfl
@[simp] theorem resetRegisters_fie (s : State) : (resetRegisters s).fie = State.reset.fie := rfl
@[simp] theorem resetRegisters_fault (s : State) : (resetRegisters s).fault = State.reset.fault := rfl
@[simp] theorem resetRegisters_finfo (s : State) : (resetRegisters s).finfo = State.reset.finfo := rfl
@[simp] theorem resetRegisters_cmdCnt (s : State) : (resetRegisters s).cmdCnt = State.reset.cmdCnt := rfl
@[simp] theorem resetRegisters_cmdLast (s : State) : (resetRegisters s).cmdLast = State.reset.cmdLast := rfl
@[simp] theorem resetRegisters_inflight (s : State) : (resetRegisters s).inflight = State.reset.inflight := rfl
@[simp] theorem resetRegisters_port (s : State) : (resetRegisters s).port = s.port := rfl
@[simp] theorem resetRegisters_hRdata (s : State) : (resetRegisters s).hRdata = s.hRdata := rfl
@[simp] theorem resetRegisters_instNo (s : State) : (resetRegisters s).instNo = s.instNo := rfl

@[simp] theorem beginCycle_x (s : State) : (beginCycle s).x = s.x := rfl
@[simp] theorem beginCycle_fie (s : State) : (beginCycle s).fie = s.fie := rfl
@[simp] theorem beginCycle_fault (s : State) : (beginCycle s).fault = s.fault := rfl
@[simp] theorem beginCycle_finfo (s : State) : (beginCycle s).finfo = s.finfo := rfl
@[simp] theorem beginCycle_cmdCnt (s : State) : (beginCycle s).cmdCnt = s.cmdCnt := rfl
@[simp] theorem beginCycle_cmdLast (s : State) : (beginCycle s).cmdLast = s.cmdLast := rfl
@[simp] theorem beginCycle_inflight (s : State) : (beginCycle s).inflight = s.inflight := rfl
@[simp] theorem beginCycle_port (s : State) : (beginCycle s).port = s.port.tail := rfl
@[simp] theorem beginCycle_hRdata (s : State) : (beginCycle s).hRdata = none := rfl
@[simp] theorem beginCycle_instNo (s : State) : (beginCycle s).instNo = s.instNo := rfl

@[simp] theorem completed_x (r : Regs) (s : State) : (completed r s).x = r := rfl
@[simp] theorem completed_fie (r : Regs) (s : State) : (completed r s).fie = s.fie := rfl
@[simp] theorem completed_fault (r : Regs) (s : State) : (completed r s).fault = s.fault := rfl
@[simp] theorem completed_finfo (r : Regs) (s : State) : (completed r s).finfo = s.finfo := rfl
@[simp] theorem completed_cmdCnt (r : Regs) (s : State) : (completed r s).cmdCnt = s.cmdCnt + 1 := rfl
@[simp] theorem completed_cmdLast (r : Regs) (s : State) : (completed r s).cmdLast = s.cmdLast := rfl
@[simp] theorem completed_inflight (r : Regs) (s : State) : (completed r s).inflight = none := rfl
@[simp] theorem completed_port (r : Regs) (s : State) : (completed r s).port = s.port := rfl
@[simp] theorem completed_hRdata (r : Regs) (s : State) : (completed r s).hRdata = s.hRdata := rfl
@[simp] theorem completed_instNo (r : Regs) (s : State) : (completed r s).instNo = s.instNo := rfl

@[simp] theorem faultedWith_x (c d : Byte) (s : State) : (faultedWith c d s).x = s.x := rfl
@[simp] theorem faultedWith_fie (c d : Byte) (s : State) : (faultedWith c d s).fie = s.fie := rfl
@[simp] theorem faultedWith_fault (c d : Byte) (s : State) : (faultedWith c d s).fault = c := rfl
@[simp] theorem faultedWith_finfo (c d : Byte) (s : State) : (faultedWith c d s).finfo = ⟨s.commandHalf, d⟩ := rfl
@[simp] theorem faultedWith_cmdCnt (c d : Byte) (s : State) : (faultedWith c d s).cmdCnt = s.cmdCnt := rfl
@[simp] theorem faultedWith_cmdLast (c d : Byte) (s : State) : (faultedWith c d s).cmdLast = s.cmdLast := rfl
@[simp] theorem faultedWith_inflight (c d : Byte) (s : State) : (faultedWith c d s).inflight = none := rfl
@[simp] theorem faultedWith_port (c d : Byte) (s : State) : (faultedWith c d s).port = s.port := rfl
@[simp] theorem faultedWith_hRdata (c d : Byte) (s : State) : (faultedWith c d s).hRdata = s.hRdata := rfl
@[simp] theorem faultedWith_instNo (c d : Byte) (s : State) : (faultedWith c d s).instNo = s.instNo := rfl

@[simp] theorem afterCycle_x (s : State) : (afterCycle s).x = s.x := rfl
@[simp] theorem afterCycle_fie (s : State) : (afterCycle s).fie = s.fie := rfl
@[simp] theorem afterCycle_fault (s : State) : (afterCycle s).fault = s.fault := rfl
@[simp] theorem afterCycle_finfo (s : State) : (afterCycle s).finfo = s.finfo := rfl
@[simp] theorem afterCycle_cmdCnt (s : State) : (afterCycle s).cmdCnt = s.cmdCnt := rfl
@[simp] theorem afterCycle_cmdLast (s : State) : (afterCycle s).cmdLast = s.cmdLast := rfl
@[simp] theorem afterCycle_inflight (s : State) : (afterCycle s).inflight = s.inflight := rfl
@[simp] theorem afterCycle_port (s : State) : (afterCycle s).port = s.port.tail := rfl
@[simp] theorem afterCycle_hRdata (s : State) : (afterCycle s).hRdata = none := rfl
@[simp] theorem afterCycle_instNo (s : State) : (afterCycle s).instNo = s.instNo := rfl

/-! The reset state (70_reset_and_hazards.md R311). -/

@[simp] theorem reset_x : State.reset.x = Regs.zero := rfl
@[simp] theorem reset_fie : State.reset.fie = false := rfl
@[simp] theorem reset_fault : State.reset.fault = 0 := rfl
@[simp] theorem reset_finfo : State.reset.finfo = ⟨0, 0⟩ := rfl
@[simp] theorem reset_cmdCnt : State.reset.cmdCnt = 0 := rfl
@[simp] theorem reset_cmdLast : State.reset.cmdLast = 0 := rfl
@[simp] theorem reset_inflight : State.reset.inflight = none := rfl
@[simp] theorem reset_port : State.reset.port = [] := rfl
@[simp] theorem reset_hRdata : State.reset.hRdata = none := rfl
@[simp] theorem reset_instNo : State.reset.instNo = 0 := rfl

/-! The claims' words for a next state are the model's operations. -/

theorem completed_eq (r : Regs) (s : State) : completed r s = complete r s := rfl
theorem faultedWith_eq (k : FaultKind) (d : Byte) (s : State) : faultedWith k.code d s = latchFault k d s := rfl
theorem afterCycle_eq (s : State) : afterCycle s = beginCycle s := rfl

end Sys2Proof.Machine
end

