-- ==== Sys2Proof/Laws/Ops.lean ====
section
/-! SUPPORT. What the shared operations can do, said once: rules and their completion, the register file, the commands
as pure functions, the port and the cycle. -/

namespace Sys2Proof.Machine

/-! ## Rules -/

@[simp] theorem rule_pure {α : Type} (a : α) : (pure a : Rule α) = .ok a := rfl
@[simp] theorem rule_bind_ok {α β : Type} (a : α) (f : α → Rule β) : ((Except.ok a : Rule α) >>= f) = f a := rfl
@[simp] theorem rule_bind_error {α β : Type} (r : Raise) (f : α → Rule β) :
    ((Except.error r : Rule α) >>= f) = .error r := rfl

theorem rule_bind_eq_ok {α β : Type} {m : Rule α} {f : α → Rule β} {b : β} (h : m >>= f = .ok b) :
    ∃ a, m = .ok a ∧ f a = .ok b := by
  cases m with
  | ok a => exact ⟨a, rfl, h⟩
  | error r => cases h

theorem rule_bind_eq_error {α β : Type} {m : Rule α} {f : α → Rule β} {r : Raise} (h : m >>= f = .error r) :
    m = .error r ∨ ∃ a, m = .ok a ∧ f a = .error r := by
  cases m with
  | ok a => exact .inr ⟨a, rfl, h⟩
  | error q => cases h; exact .inl rfl

@[simp] theorem require_true (k : FaultKind) (d : Byte) : require true k d = .ok () := rfl
@[simp] theorem require_false (k : FaultKind) (d : Byte) : require false k d = .error ⟨k, d⟩ := rfl

theorem require_eq_ok {b : Bool} {k : FaultKind} {d : Byte} {u : Unit} (h : require b k d = .ok u) : b = true := by
  cases b
  · cases h
  · rfl

theorem require_eq_error {b : Bool} {k : FaultKind} {d : Byte} {r : Raise} (h : require b k d = .error r) :
    b = false ∧ r = ⟨k, d⟩ := by
  cases b
  · exact ⟨rfl, by cases h; rfl⟩
  · cases h

/-! ## Completion of a command -/

@[simp] theorem finish_ok (x : Regs) (s : State) : finish (.ok x) s = .next (complete x s) := rfl
@[simp] theorem finish_error (r : Raise) (s : State) : finish (.error r) s = .next (latchFault r.kind r.detail s) := rfl

/-- Completion answers a next state: the results all at once, or the fault latched. -/
theorem finish_cases {r : Rule Regs} {s t : State} (h : finish r s = .next t) :
    (∃ x, r = .ok x ∧ t = complete x s) ∨ (∃ f, r = .error f ∧ t = latchFault f.kind f.detail s) := by
  cases r with
  | ok x => cases h; exact .inl ⟨x, rfl, rfl⟩
  | error f => cases h; exact .inr ⟨f, rfl, rfl⟩

/-- The rule of a command as one function (00_scope.md R8). -/
def commandRule : Instr → Regs → Rule Regs
  | .nop, x => .ok x
  | .rgb2ypp, x => rgb2yppRule x
  | .ypp2rgb, x => ypp2rgbRule x
  | .pack, x => packRule x
  | .unpack, x => unpackRule x
  | .fitsu w, x => .ok { x with x2 := boolWord (fitsU (u64 x.x1) w) }
  | .fitss w, x => .ok { x with x2 := boolWord (fitsS (i64 x.x1) w) }
  | .getu w l, x => intoX2 x (getU x.x0 w l)
  | .gets w l, x => intoX2 x (getS x.x0 w l)
  | .newu w l, x => intoX2 x (insU x.x0 w l (u64 x.x1))
  | .news w l, x => intoX2 x (insS x.x0 w l (i64 x.x1))
  | .shl, x => .ok { x with x2 := shl64 x.x0 (u64 x.x1) }
  | .shr, x => .ok { x with x2 := lshr64 x.x0 (u64 x.x1) }
  | .sar, x => .ok { x with x2 := ashr64 x.x0 (u64 x.x1) }
  | .dct, x => dctRule x
  | .idct, x => idctRule x
  | .avg4, x => avg4Rule x
  | .quant, x => quantRule x
  | .dequant, x => dequantRule x
  | .sqrnd, x => intoX2 x (sqrndRule x)
  | .sqclamp w, x => intoX2 x (sqclampRule w x)
  | .sdq, x => intoX2 x (sdqRule x)
  | .sattrunc, x => intoX2 x (sattruncRule x)

/-- Executing a command is completing with the answer of its rule. -/
theorem exec_eq_finish (i : Instr) (s : State) : exec i s = finish (commandRule i s.x) s := by
  cases i <;> rfl

theorem intoX2_eq_ok {x y : Regs} {m : Rule Word} (h : intoX2 x m = .ok y) :
    ∃ v, m = .ok v ∧ y = { x with x2 := v } := by
  cases m with
  | ok v => cases h; exact ⟨v, rfl, rfl⟩
  | error r => cases h

theorem intoX2_eq_error {x : Regs} {m : Rule Word} {r : Raise} (h : intoX2 x m = .error r) : m = .error r := by
  cases m with
  | ok v => cases h
  | error q => cases h; rfl

@[simp] theorem intoX2_ok (x : Regs) (v : Word) : intoX2 x (.ok v) = .ok { x with x2 := v } := rfl
@[simp] theorem intoX2_error (x : Regs) (r : Raise) : intoX2 x (.error r) = .error r := rfl

/-! ## The register file -/

@[simp] theorem get_set_same (r : Regs) (i : Fin 8) (v : Word) : (r.set i v).get i = v := by
  fin_cases i <;> rfl

theorem get_set_other (r : Regs) {i j : Fin 8} (v : Word) (h : j ≠ i) : (r.set i v).get j = r.get j := by
  fin_cases i <;> fin_cases j <;> first | rfl | exact absurd rfl h

theorem regs_ext {a b : Regs} (h : ∀ i, a.get i = b.get i) : a = b := by
  cases a
  cases b
  simp only [Regs.mk.injEq]
  exact ⟨h 0, h 1, h 2, h 3, h 4, h 5, h 6, h 7⟩

/-- Reading a binary64 operand succeeds exactly on a finite pattern. -/
theorem readF64_finite {x : Regs} {i : Fin 8} (h : isFinite (x.get i) = true) :
    readF64 x i = .ok (f64Value (x.get i)) := by
  simp [readF64, h]

theorem readF64_nonfinite {x : Regs} {i : Fin 8} (h : isFinite (x.get i) = false) :
    readF64 x i = .error ⟨.nonfinite, regDetail i⟩ := by
  simp [readF64, h]

theorem rnd64_inRange {i : Fin 8} {q : ℚ} (h : |q| < rnd64Limit) : rnd64 i q = .ok (rnd64Bits q) := by
  simp [rnd64, not_le.mpr h]

theorem rnd64_outOfRange {i : Fin 8} {q : ℚ} (h : rnd64Limit ≤ |q|) :
    rnd64 i q = .error ⟨.fprange, regDetail i⟩ := by
  simp [rnd64, h]

/-! ## The port and the cycle -/

@[simp] theorem commandHalf_inflight (s : State) (f : InFlight) (h : s.inflight = some f) :
    s.commandHalf = lowHalf f.cmd := by
  simp [State.commandHalf, h]

theorem commandHalf_idle (s : State) (h : s.inflight = none) : s.commandHalf = s.cmdLast := by
  simp [State.commandHalf, h]

theorem portAccess_none {c : PortCycle} (s : State) (h : c.performs = false) : portAccess c s = s := by
  unfold portAccess PortCycle.hReady
  have : (c.hValid && (c.rstN && c.grant)) = false := by
    revert h
    cases c with
    | mk rstN hValid grant hWe hIdx hWdata => cases rstN <;> cases hValid <;> cases grant <;> simp [PortCycle.performs]
  simp [this]

theorem portAccess_write {c : PortCycle} (s : State) (h : c.performs = true) (hw : c.hWe = true) :
    portAccess c s = regWrite c.hIdx c.hWdata s := by
  simp only [PortCycle.performs, Bool.and_eq_true] at h
  simp [portAccess, PortCycle.hReady, h.1.1, h.1.2, h.2, hw]

theorem portAccess_read {c : PortCycle} (s : State) (h : c.performs = true) (hw : c.hWe = false) :
    portAccess c s = { s with hRdata := some (regRead c.hIdx s) } := by
  simp only [PortCycle.performs, Bool.and_eq_true] at h
  simp [portAccess, PortCycle.hReady, h.1.1, h.1.2, h.2, hw]

/-- A write reaches CTRL, CMD or a data register, or has no effect. -/
theorem regWrite_cases (idx : Byte) (v : Word) (s : State) :
    (∃ i, dataIndex idx = some i ∧ regWrite idx v s = dataWrite idx i v s) ∨
    (dataIndex idx = none ∧ idx = 0x01 ∧ regWrite idx v s = ctrlWrite v s) ∨
    (dataIndex idx = none ∧ idx = 0x03 ∧ regWrite idx v s = commandWrite v s) ∨
    (dataIndex idx = none ∧ idx ≠ 0x01 ∧ idx ≠ 0x03 ∧ regWrite idx v s = s) := by
  unfold regWrite
  cases hd : dataIndex idx with
  | some i => exact .inl ⟨i, rfl, rfl⟩
  | none =>
    by_cases h1 : idx = 0x01
    · exact .inr (.inl ⟨rfl, h1, by simp [h1]⟩)
    · by_cases h3 : idx = 0x03
      · exact .inr (.inr (.inl ⟨rfl, h3, by simp [h3]⟩))
      · exact .inr (.inr (.inr ⟨rfl, h1, h3, by rw [if_neg h1, if_neg h3]⟩))

/-- The engine at an edge: idle, counting down, or completing (45_control.md R261). -/
theorem engineEdge_idle {run : Executor} {s : State} (h : s.inflight = none) : engineEdge run s = .next s := by
  simp [engineEdge, h]

theorem engineEdge_count {run : Executor} {s : State} {cmd : Word} {n : ℕ} (h : s.inflight = some ⟨cmd, n + 2⟩) :
    engineEdge run s = .next { s with inflight := some ⟨cmd, n + 1⟩ } := by
  simp [engineEdge, h]

theorem engineEdge_complete {run : Executor} {s : State} {cmd : Word} {n : ℕ} (h : s.inflight = some ⟨cmd, n⟩)
    (hn : n ≤ 1) : engineEdge run s = completeWord run cmd s := by
  simp [engineEdge, h, hn]

/-- A step out of reset is the engine's edge and then the access. -/
theorem step_running {s t : State} (hr : s.nextPins.rstN = true) (he : engineEdge exec (beginCycle s) = .next t) :
    step s = .next (portAccess s.nextPins t) := by
  simp [step, cycle, hr, he]

theorem step_reset {s : State} (hr : s.nextPins.rstN = false) : step s = .next (resetRegisters (beginCycle s)) := by
  simp [step, cycle, hr]

end Sys2Proof.Machine
end

