-- ==== Sys2Proof/Laws/Numeric.lean ====
section
/-! SUPPORT. The pseudocode primitives, reduced to the library's powers, floors and bit vectors. -/

namespace Sys2Proof.Machine

/-! ## Powers of two -/

theorem pow2_eq_zpow (n : ℤ) : pow2 n = (2 : ℚ) ^ n := by
  cases n with
  | ofNat n => unfold pow2; simp
  | negSucc n => unfold pow2; simp [zpow_negSucc]

theorem pow2_pos (n : ℤ) : 0 < pow2 n := by rw [pow2_eq_zpow]; positivity

theorem pow2_add (m n : ℤ) : pow2 (m + n) = pow2 m * pow2 n := by
  simp only [pow2_eq_zpow]; exact zpow_add₀ (by norm_num) m n

theorem pow2_le {m n : ℤ} (h : m ≤ n) : pow2 m ≤ pow2 n := by
  simp only [pow2_eq_zpow]; exact zpow_le_zpow_right₀ (by norm_num) h

theorem pow2_lt {m n : ℤ} (h : m < n) : pow2 m < pow2 n := by
  simp only [pow2_eq_zpow]; exact zpow_lt_zpow_right₀ (by norm_num) h

/-! ## Integer views -/

theorem tc64_natCast (n : ℕ) : tc64 (n : ℤ) = BitVec.ofNat 64 n := by
  simp [tc64]

theorem tc64_u64 (p : Word) : tc64 (u64 p : ℤ) = p := by
  simp [tc64_natCast, u64]

theorem tc64_i64 (p : Word) : tc64 (i64 p) = p := by
  simp [tc64, i64]

theorem u64_lt (p : Word) : u64 p < 2 ^ 64 := p.isLt

/-! ## Clamp -/

theorem clamp_eq_max_min {α : Type} [LinearOrder α] (v lo hi : α) (h : lo ≤ hi) :
    clamp v lo hi = max lo (min v hi) := by
  unfold clamp
  split_ifs with h1 h2
  · rw [min_eq_left (h1.le.trans h), max_eq_left h1.le]
  · rw [min_eq_right h2.le, max_eq_right h]
  · rw [min_eq_left (not_lt.mp h2), max_eq_right (not_lt.mp h1)]

theorem clamp_mem {α : Type} [LinearOrder α] (v lo hi : α) (h : lo ≤ hi) : lo ≤ clamp v lo hi ∧ clamp v lo hi ≤ hi := by
  rw [clamp_eq_max_min v lo hi h]
  exact ⟨le_max_left _ _, max_le h (min_le_right _ _)⟩

/-- The numbers the rules clamp a scaled channel to are integers of the register (44_scaler.md R244). -/
theorem scaleTrunc_eq_floor (v : ℚ) (d : ℕ) : scaleTrunc v d = tc64 ⌊max 0 (min (v * d) d)⌋ := by
  have hd : (0 : ℚ) ≤ d := by positivity
  unfold scaleTrunc trunc
  rw [clamp_eq_max_min _ _ _ hd, if_pos (le_max_left _ _)]

/-! ## The binary64 view -/

theorem expField_lt (p : Word) : expField p < 2048 := (p.extractLsb' 52 11).isLt

theorem fracField_lt (p : Word) : fracField p < 2 ^ 52 := (p.extractLsb' 0 52).isLt

theorem isFinite_iff (p : Word) : isFinite p = true ↔ expField p ≤ 2046 := by
  have := expField_lt p
  simp only [isFinite, bne_iff_ne, ne_eq]
  omega

/-- The exact magnitude of a pattern, its sign aside (00_scope.md R16). -/
theorem abs_f64Value (p : Word) :
    |f64Value p| = if expField p = 0 then pow2 (-1074) * fracField p
      else pow2 (expField p - 1023) * (1 + fracField p / pow2 52) := by
  have h1 := pow2_pos (-1074)
  have h2 := pow2_pos (expField p - 1023)
  have h3 := pow2_pos 52
  have hs : |(if p.msb = true then (-1 : ℚ) else 1)| = 1 := by split <;> simp
  have hf : (0 : ℚ) ≤ fracField p := by positivity
  unfold f64Value
  simp only
  split_ifs with he hm hm <;> rw [abs_mul, abs_mul] <;>
    simp [abs_of_pos h1, abs_of_pos h2, abs_of_nonneg (by positivity : (0 : ℚ) ≤ 1 + fracField p / pow2 52)]

/-- A finite pattern's magnitude is at most the largest finite one, 2^1024 - 2^971 (00_scope.md R16). -/
theorem abs_f64Value_le {p : Word} (h : isFinite p = true) : |f64Value p| ≤ pow2 1024 - pow2 971 := by
  rw [isFinite_iff] at h
  have hf : (fracField p : ℚ) ≤ 2 ^ 52 - 1 := by
    have := fracField_lt p
    have : fracField p + 1 ≤ 2 ^ 52 := this
    have : ((fracField p + 1 : ℕ) : ℚ) ≤ 2 ^ 52 := by exact_mod_cast this
    push_cast at this
    linarith
  have h52 : pow2 52 = 2 ^ 52 := by rw [pow2_eq_zpow]; norm_cast
  have htop : pow2 1023 * (1 + (2 ^ 52 - 1) / 2 ^ 52) = pow2 1024 - pow2 971 := by
    have e1 : pow2 1024 = pow2 971 * 2 ^ 53 := by
      rw [show (1024 : ℤ) = 971 + 53 by norm_num, pow2_add, pow2_eq_zpow 53]; norm_cast
    have e2 : pow2 1023 = pow2 971 * 2 ^ 52 := by
      rw [show (1023 : ℤ) = 971 + 52 by norm_num, pow2_add, pow2_eq_zpow 52]; norm_cast
    rw [e1, e2]; ring
  rw [abs_f64Value, ← htop]
  have hf0 : (0 : ℚ) ≤ fracField p := by positivity
  split_ifs with he
  · calc pow2 (-1074) * fracField p ≤ pow2 (-1074) * 2 ^ 52 := by
          gcongr; exacts [(pow2_pos _).le, by linarith]
      _ = pow2 (-1022) := by rw [← h52, ← pow2_add]; norm_num
      _ ≤ pow2 1023 := pow2_le (by norm_num)
      _ ≤ pow2 1023 * (1 + (2 ^ 52 - 1) / 2 ^ 52) := le_mul_of_one_le_right (pow2_pos _).le (by norm_num)
  · rw [h52]
    have : pow2 (expField p - 1023) ≤ pow2 1023 := pow2_le (by omega)
    have := pow2_pos 1023
    gcongr

/-- A finite pattern lies below the overflow threshold (00_scope.md R18). -/
theorem abs_f64Value_lt_limit {p : Word} (h : isFinite p = true) : |f64Value p| < rnd64Limit := by
  have := abs_f64Value_le h
  have : pow2 970 < pow2 971 := pow2_lt (by norm_num)
  unfold rnd64Limit
  linarith

/-- The threshold of 00_scope.md R18 in plain powers. -/
theorem rnd64Limit_eq : rnd64Limit = 2 ^ 1024 - 2 ^ 970 := by
  rw [rnd64Limit, pow2_eq_zpow, pow2_eq_zpow, show (1024 : ℤ) = ((1024 : ℕ) : ℤ) from rfl, zpow_natCast,
    show (970 : ℤ) = ((970 : ℕ) : ℤ) from rfl, zpow_natCast]

theorem rnd64Limit_pos : 0 < rnd64Limit := by
  have : pow2 970 < pow2 1024 := pow2_lt (by norm_num)
  unfold rnd64Limit
  linarith

/-- The threshold lies above every 64-bit integer. -/
theorem two_pow_100_lt_limit : (2 : ℚ) ^ 100 < rnd64Limit := by
  have h1 : pow2 1024 = pow2 970 * 2 ^ 54 := by
    rw [show (1024 : ℤ) = 970 + 54 by norm_num, pow2_add, pow2_eq_zpow 54]; norm_cast
  have h2 : pow2 100 ≤ pow2 970 := pow2_le (by norm_num)
  have h3 : pow2 100 = 2 ^ 100 := by rw [pow2_eq_zpow]; norm_cast
  have := pow2_pos 970
  unfold rnd64Limit
  rw [h1]
  linarith

/-- The average of four magnitudes below a bound is below it (43_dct_quant.md R212, R214). -/
theorem abs_quarter_lt {a b c d l : ℚ} (ha : |a| < l) (hb : |b| < l) (hc : |c| < l) (hd : |d| < l) :
    |(a + b + c + d) / 4| < l := by
  rw [abs_lt] at *
  constructor <;> linarith [ha.1, ha.2, hb.1, hb.2, hc.1, hc.2, hd.1, hd.2]

end Sys2Proof.Machine
end

