-- ==== Sys2Proof/Laws/Decode.lean ====
section
/-! SUPPORT. The fields of an encoded word, and the opcode map. -/

namespace Sys2Proof

/-- No two rows of the opcode map share an OPC, and none share a mnemonic (30_encoding.md R114). -/
theorem opTable_distinct :
    (opTable.map OpRow.opc).Nodup ∧ (opTable.map OpRow.mnemonic).Nodup := by decide

/-- A well-formed command's W and L are 7-bit fields. -/
theorem fields_lt {i : Instr} (h : i.wellFormed = true) : i.w < 128 ∧ i.l < 128 := by
  cases i <;> simp_all [Instr.wellFormed, Instr.w, Instr.l, fieldFits]

/-- A row that is found stands in the map and has the OPC looked for. -/
theorem findRow_mem {o : Byte} {r : OpRow} (h : findRow o = some r) : r ∈ opTable ∧ r.opc = o :=
  ⟨List.mem_of_find?_eq_some h, by simpa using List.find?_some h⟩

/-- A word decodes exactly where its OPC finds a row and the two later checks pass (30_encoding.md R116). -/
theorem decode_eq_ok {cmd : Word} {i : Instr} (h : decode cmd = .ok i) :
    ∃ row, findRow (opcField cmd) = some row ∧ reservedBitSet cmd = false ∧
      (row.takesW = false → wField cmd = 0) ∧ (row.takesL = false → lField cmd = 0) ∧
      i = row.make (wField cmd) (lField cmd) := by
  unfold decode at h
  cases hr : findRow (opcField cmd) with
  | none => simp [hr] at h
  | some row =>
    simp only [hr] at h
    split_ifs at h with h1 h2
    simp only [Except.ok.injEq] at h
    refine ⟨row, rfl, by simpa using h1, fun hf => ?_, fun hf => ?_, h.symm⟩ <;> by_contra hn <;>
      exact h2 (by simp [hf, hn])

/-- A 7-bit field has no bit from 7 on. -/
theorem testBit_field {n : ℕ} (h : n < 128) {k : ℕ} (hk : 7 ≤ k) : n.testBit k = false :=
  Nat.testBit_lt_two_pow (h.trans_le (Nat.pow_le_pow_right (n := 2) (by norm_num) hk))

theorem opcField_encode (i : Instr) : opcField (encode i) = i.opc := by
  unfold opcField encode
  apply BitVec.eq_of_getLsbD_eq
  intro k hk
  simp [hk, show k < 16 by omega, show k < 64 by omega]

theorem wField_encode (i : Instr) (hw : i.w < 128) : wField (encode i) = i.w := by
  have h : (encode i).extractLsb' 8 7 = BitVec.ofNat 7 i.w := by
    unfold encode
    apply BitVec.eq_of_getLsbD_eq
    intro k hk
    simp only [BitVec.getLsbD_extractLsb', BitVec.getLsbD_or, BitVec.getLsbD_shiftLeft, BitVec.getLsbD_setWidth,
      BitVec.getLsbD_ofNat]
    simp [hk, show 8 + k < 16 by omega, show 8 + k < 64 by omega, show k < 64 by omega]
  unfold wField
  rw [h, BitVec.toNat_ofNat, Nat.mod_eq_of_lt hw]

theorem lField_encode (i : Instr) (hw : i.w < 128) (hl : i.l < 128) : lField (encode i) = i.l := by
  have h : (encode i).extractLsb' 16 7 = BitVec.ofNat 7 i.l := by
    unfold encode
    apply BitVec.eq_of_getLsbD_eq
    intro k hk
    have := testBit_field hw (k := 16 + k - 8) (by omega)
    simp only [BitVec.getLsbD_extractLsb', BitVec.getLsbD_or, BitVec.getLsbD_shiftLeft, BitVec.getLsbD_setWidth,
      BitVec.getLsbD_ofNat]
    simp [hk, show 16 + k < 64 by omega, show k < 64 by omega, this,
      BitVec.getLsbD_of_ge i.opc (16 + k) (by omega)]
  unfold lField
  rw [h, BitVec.toNat_ofNat, Nat.mod_eq_of_lt hl]

theorem reservedBitSet_encode (i : Instr) (hw : i.w < 128) (hl : i.l < 128) : reservedBitSet (encode i) = false := by
  have h15 : (encode i).getLsbD 15 = false := by
    have hW := testBit_field hw (k := 15 - 8) (by omega)
    unfold encode
    simp only [BitVec.getLsbD_or, BitVec.getLsbD_shiftLeft, BitVec.getLsbD_setWidth, BitVec.getLsbD_ofNat, hW,
      BitVec.getLsbD_of_ge i.opc 15 (by omega)]
    rfl
  have hhi : (encode i).extractLsb' 23 41 = 0 := by
    unfold encode
    apply BitVec.eq_of_getLsbD_eq
    intro k hk
    have hW := testBit_field hw (k := 23 + k - 8) (by omega)
    have hL := testBit_field hl (k := 23 + k - 16) (by omega)
    simp only [BitVec.getLsbD_extractLsb', BitVec.getLsbD_or, BitVec.getLsbD_shiftLeft, BitVec.getLsbD_setWidth,
      BitVec.getLsbD_ofNat, hW, hL, BitVec.getLsbD_of_ge i.opc (23 + k) (by omega)]
    simp
  rw [reservedBitSet, h15, hhi]
  rfl

/-- The assembler's formula as a number: `(L << 16) | (W << 8) | OPC`, whose parts do not overlap (30_encoding.md R119). -/
theorem encode_eq_ofNat (i : Instr) (hw : i.w < 128) (hl : i.l < 128) :
    encode i = BitVec.ofNat 64 (i.l * 2 ^ 16 + i.w * 2 ^ 8 + i.opc.toNat) := by
  have ho : i.opc.toNat < 2 ^ 8 := i.opc.isLt
  have e1 : i.w <<< 8 ||| i.opc.toNat = i.w * 2 ^ 8 + i.opc.toNat := by
    rw [← Nat.shiftLeft_add_eq_or_of_lt ho, Nat.shiftLeft_eq]
  have e2 : i.l <<< 16 ||| (i.w * 2 ^ 8 + i.opc.toNat) = i.l * 2 ^ 16 + i.w * 2 ^ 8 + i.opc.toNat := by
    rw [← Nat.shiftLeft_add_eq_or_of_lt (by omega), Nat.shiftLeft_eq, add_assoc]
  apply BitVec.eq_of_toNat_eq
  unfold encode
  simp only [BitVec.toNat_or, BitVec.toNat_shiftLeft, BitVec.toNat_ofNat, BitVec.toNat_setWidth]
  rw [Nat.mod_eq_of_lt (show i.l < 2 ^ 64 by omega), Nat.mod_eq_of_lt (show i.w < 2 ^ 64 by omega),
    Nat.mod_eq_of_lt (show i.l <<< 16 < 2 ^ 64 by rw [Nat.shiftLeft_eq]; omega),
    Nat.mod_eq_of_lt (show i.w <<< 8 < 2 ^ 64 by rw [Nat.shiftLeft_eq]; omega),
    Nat.mod_eq_of_lt (show i.opc.toNat < 2 ^ 64 by omega), Nat.or_assoc, e1, e2, Nat.mod_eq_of_lt (by omega)]

end Sys2Proof
end

