-- ==== Sys2Proof/Laws/PerInstr.lean ====
section
/-! SUPPORT. What holds of every command as syntax, one lemma per constructor: its row of the opcode map rebuilds it
from its own OPC, W and L, and a field its row does not take is 0 (30_encoding.md R114, R115). -/

namespace Sys2Proof.Laws.FieldUse

/-- The command's OPC finds a row that rebuilds the command from its W and L, and the row takes every field the command
uses. -/
def Statement (i : Instr) : Prop :=
  ∃ row, findRow i.opc = some row ∧ row.make i.w i.l = i ∧
    (row.takesW = false → i.w = 0) ∧ (row.takesL = false → i.l = 0)

theorem nop : Statement .nop := ⟨_, rfl, rfl, fun _ => rfl, fun _ => rfl⟩
theorem rgb2ypp : Statement .rgb2ypp := ⟨_, rfl, rfl, fun _ => rfl, fun _ => rfl⟩
theorem ypp2rgb : Statement .ypp2rgb := ⟨_, rfl, rfl, fun _ => rfl, fun _ => rfl⟩
theorem pack : Statement .pack := ⟨_, rfl, rfl, fun _ => rfl, fun _ => rfl⟩
theorem unpack : Statement .unpack := ⟨_, rfl, rfl, fun _ => rfl, fun _ => rfl⟩
theorem fitsu (w : ℕ) : Statement (.fitsu w) := ⟨_, rfl, rfl, fun h => absurd h (by decide), fun _ => rfl⟩
theorem fitss (w : ℕ) : Statement (.fitss w) := ⟨_, rfl, rfl, fun h => absurd h (by decide), fun _ => rfl⟩
theorem getu (w l : ℕ) : Statement (.getu w l) := ⟨_, rfl, rfl, fun h => absurd h (by decide), fun h => absurd h (by decide)⟩
theorem gets (w l : ℕ) : Statement (.gets w l) := ⟨_, rfl, rfl, fun h => absurd h (by decide), fun h => absurd h (by decide)⟩
theorem newu (w l : ℕ) : Statement (.newu w l) := ⟨_, rfl, rfl, fun h => absurd h (by decide), fun h => absurd h (by decide)⟩
theorem news (w l : ℕ) : Statement (.news w l) := ⟨_, rfl, rfl, fun h => absurd h (by decide), fun h => absurd h (by decide)⟩
theorem shl : Statement .shl := ⟨_, rfl, rfl, fun _ => rfl, fun _ => rfl⟩
theorem shr : Statement .shr := ⟨_, rfl, rfl, fun _ => rfl, fun _ => rfl⟩
theorem sar : Statement .sar := ⟨_, rfl, rfl, fun _ => rfl, fun _ => rfl⟩
theorem dct : Statement .dct := ⟨_, rfl, rfl, fun _ => rfl, fun _ => rfl⟩
theorem idct : Statement .idct := ⟨_, rfl, rfl, fun _ => rfl, fun _ => rfl⟩
theorem avg4 : Statement .avg4 := ⟨_, rfl, rfl, fun _ => rfl, fun _ => rfl⟩
theorem quant : Statement .quant := ⟨_, rfl, rfl, fun _ => rfl, fun _ => rfl⟩
theorem dequant : Statement .dequant := ⟨_, rfl, rfl, fun _ => rfl, fun _ => rfl⟩
theorem sqrnd : Statement .sqrnd := ⟨_, rfl, rfl, fun _ => rfl, fun _ => rfl⟩
theorem sqclamp (w : ℕ) : Statement (.sqclamp w) := ⟨_, rfl, rfl, fun h => absurd h (by decide), fun _ => rfl⟩
theorem sdq : Statement .sdq := ⟨_, rfl, rfl, fun _ => rfl, fun _ => rfl⟩
theorem sattrunc : Statement .sattrunc := ⟨_, rfl, rfl, fun _ => rfl, fun _ => rfl⟩

/-- Every command, by its own lemma. -/
theorem every (i : Instr) : Statement i := by
  cases i with
  | nop => exact nop
  | rgb2ypp => exact rgb2ypp
  | ypp2rgb => exact ypp2rgb
  | pack => exact pack
  | unpack => exact unpack
  | fitsu w => exact fitsu w
  | fitss w => exact fitss w
  | getu w l => exact getu w l
  | gets w l => exact gets w l
  | newu w l => exact newu w l
  | news w l => exact news w l
  | shl => exact shl
  | shr => exact shr
  | sar => exact sar
  | dct => exact dct
  | idct => exact idct
  | avg4 => exact avg4
  | quant => exact quant
  | dequant => exact dequant
  | sqrnd => exact sqrnd
  | sqclamp w => exact sqclamp w
  | sdq => exact sdq
  | sattrunc => exact sattrunc

end Sys2Proof.Laws.FieldUse
end

