-- ==== Sys2Proof/Laws/Rounding.lean ====
section
/-! SUPPORT. What the rounding to binary64 computes (00_scope.md R16, R18): the spacing around a value, the integer it is
rounded to, the value of the pattern made of it, and that every finite value is a multiple of the spacing or lies below the
binade. -/

namespace Sys2Proof.Machine

/-- `ilog2` is the exponent of the binade of a positive rational. -/
theorem ilog2_spec {m : ℚ} (h : 0 < m) : pow2 (ilog2 m) ≤ m ∧ m < pow2 (ilog2 m + 1) := by
  have hn : m.num.natAbs ≠ 0 := by simpa using h.ne'
  have hd := m.den_nz
  have hq : (m : ℚ) = (m.num.natAbs : ℚ) / (m.den : ℚ) := by
    have h1 : ((m.num.natAbs : ℤ) : ℚ) = (m.num : ℚ) := by
      rw [Int.natAbs_of_nonneg (Rat.num_nonneg.mpr h.le)]
    rw [← Int.cast_natCast m.num.natAbs, h1]
    exact (Rat.num_div_den m).symm
  have hdp : (0 : ℚ) < m.den := by exact_mod_cast Nat.pos_of_ne_zero hd
  have hqd : m * m.den = (m.num.natAbs : ℚ) := (eq_div_iff hdp.ne').mp hq
  have nlo : pow2 (m.num.natAbs.log2) ≤ (m.num.natAbs : ℚ) := by
    rw [pow2_eq_zpow, zpow_natCast]; exact_mod_cast Nat.log2_self_le hn
  have nhi : (m.num.natAbs : ℚ) < pow2 (m.num.natAbs.log2 + 1) := by
    rw [pow2_eq_zpow, ← Nat.cast_succ, zpow_natCast]; exact_mod_cast Nat.lt_log2_self
  have dlo : pow2 (m.den.log2) ≤ (m.den : ℚ) := by
    rw [pow2_eq_zpow, zpow_natCast]; exact_mod_cast Nat.log2_self_le hd
  have dhi : (m.den : ℚ) < pow2 (m.den.log2 + 1) := by
    rw [pow2_eq_zpow, ← Nat.cast_succ, zpow_natCast]; exact_mod_cast Nat.lt_log2_self
  have lo : pow2 ((m.num.natAbs.log2 : ℤ) - m.den.log2 - 1) ≤ m := by
    refine le_of_mul_le_mul_right ?_ hdp
    rw [hqd]
    calc pow2 ((m.num.natAbs.log2 : ℤ) - m.den.log2 - 1) * m.den
        ≤ pow2 ((m.num.natAbs.log2 : ℤ) - m.den.log2 - 1) * pow2 (m.den.log2 + 1) :=
          mul_le_mul_of_nonneg_left dhi.le (pow2_pos _).le
      _ = pow2 (m.num.natAbs.log2) := by rw [← pow2_add]; congr 1; ring
      _ ≤ _ := nlo
  have hi : m < pow2 ((m.num.natAbs.log2 : ℤ) - m.den.log2 + 1) := by
    refine lt_of_mul_lt_mul_right ?_ hdp.le
    rw [hqd]
    calc (m.num.natAbs : ℚ) < pow2 (m.num.natAbs.log2 + 1) := nhi
      _ = pow2 ((m.num.natAbs.log2 : ℤ) - m.den.log2 + 1) * pow2 (m.den.log2) := by
          rw [← pow2_add]; congr 1; ring
      _ ≤ _ := mul_le_mul_of_nonneg_left dlo (pow2_pos _).le
  unfold ilog2
  simp only
  split_ifs with hc
  · exact ⟨lo, by rwa [sub_add_cancel]⟩
  · exact ⟨not_lt.mp hc, hi⟩

/-- `roundHalfEven` is a nearest integer, the even one at a tie. -/
theorem roundHalfEven_spec (q : ℚ) :
    |(roundHalfEven q : ℚ) - q| ≤ 1 / 2 ∧ (|(roundHalfEven q : ℚ) - q| = 1 / 2 → roundHalfEven q % 2 = 0) := by
  have h1 := Int.floor_le q
  have h2 := Int.lt_floor_add_one q
  unfold roundHalfEven
  simp only
  split_ifs with ha hb hc
  · rw [abs_of_nonpos (by linarith)]
    exact ⟨by linarith, fun h => absurd h (by linarith)⟩
  · rw [abs_of_nonneg (by push_cast; linarith)]
    push_cast
    exact ⟨by linarith, fun h => absurd h (by linarith)⟩
  · have : q - ⌊q⌋ = 1 / 2 := by linarith
    rw [abs_of_nonpos (by linarith)]
    exact ⟨by linarith, fun _ => hc⟩
  · have : q - ⌊q⌋ = 1 / 2 := by linarith
    rw [abs_of_nonneg (by push_cast; linarith)]
    push_cast
    exact ⟨by linarith, fun _ => by omega⟩

/-- A value at or above an integer rounds to at least it, and one at or below it to at most it. -/
theorem roundHalfEven_ge {q : ℚ} {n : ℤ} (h : (n : ℚ) ≤ q) : n ≤ roundHalfEven q := by
  have := Int.le_floor.mpr h
  unfold roundHalfEven
  simp only
  split_ifs <;> omega

theorem roundHalfEven_le {q : ℚ} {n : ℤ} (h : q ≤ n) : roundHalfEven q ≤ n := by
  rcases h.lt_or_eq with h | rfl
  · have : ⌊q⌋ < n := Int.floor_lt.mpr h
    unfold roundHalfEven
    simp only
    split_ifs <;> omega
  · unfold roundHalfEven
    simp

/-- The magnitude of the pattern with exponent field e and fraction f. -/
def fieldMagnitude (e f : ℕ) : ℚ := if e = 0 then pow2 (-1074) * f else pow2 (e - 1023) * (1 + f / pow2 52)

theorem abs_f64Value_fields (p : Word) : |f64Value p| = fieldMagnitude (expField p) (fracField p) := abs_f64Value p

/-- The fields of a pattern below the sign bit are its quotient and remainder by 2^52. -/
theorem fields_ofNat {n : ℕ} (h : n < 2 ^ 63) :
    expField (BitVec.ofNat 64 n) = n / 2 ^ 52 ∧ fracField (BitVec.ofNat 64 n) = n % 2 ^ 52 ∧
    (BitVec.ofNat 64 n).msb = false := by
  refine ⟨?_, ?_, ?_⟩
  · simp only [expField, BitVec.extractLsb'_toNat, BitVec.toNat_ofNat, Nat.shiftRight_eq_div_pow]
    omega
  · simp only [fracField, BitVec.extractLsb'_toNat, BitVec.toNat_ofNat, Nat.shiftRight_eq_div_pow]
    omega
  · rw [BitVec.msb_eq_false_iff_two_mul_lt, BitVec.toNat_ofNat]
    omega

theorem fields_ofNat_neg {n : ℕ} (h : n < 2 ^ 63) :
    expField (BitVec.ofNat 64 (2 ^ 63 + n)) = n / 2 ^ 52 ∧ fracField (BitVec.ofNat 64 (2 ^ 63 + n)) = n % 2 ^ 52 ∧
    (BitVec.ofNat 64 (2 ^ 63 + n)).msb = true := by
  refine ⟨?_, ?_, ?_⟩
  · simp only [expField, BitVec.extractLsb'_toNat, BitVec.toNat_ofNat, Nat.shiftRight_eq_div_pow]
    omega
  · simp only [fracField, BitVec.extractLsb'_toNat, BitVec.toNat_ofNat, Nat.shiftRight_eq_div_pow]
    omega
  · rw [BitVec.msb_eq_true_iff_two_mul_ge, BitVec.toNat_ofNat]
    omega

/-- A pattern is its sign, exponent and fraction. -/
theorem pattern_eq (p : Word) :
    p = BitVec.ofNat 64 ((if p.msb then 2 ^ 63 else 0) + expField p * 2 ^ 52 + fracField p) := by
  apply BitVec.eq_of_toNat_eq
  have hp := p.isLt
  have hm : p.msb = decide (2 ^ 63 ≤ p.toNat) := by
    rw [BitVec.msb_eq_decide]
  rw [BitVec.toNat_ofNat, hm]
  simp only [expField, fracField, BitVec.extractLsb'_toNat, Nat.shiftRight_eq_div_pow]
  by_cases h : 2 ^ 63 ≤ p.toNat
  · simp only [h, decide_true, if_true]; omega
  · simp only [h, decide_false]; simp; omega


/-- The spacing at a positive rational: its scaled value lies below 2^53, and from 2^52 on above the subnormals. -/
theorem ulpExp_spec {m : ℚ} (h : 0 < m) :
    -1074 ≤ ulpExp m ∧ m / pow2 (ulpExp m) < 2 ^ 53 ∧ (-1074 < ulpExp m → 2 ^ 52 ≤ m / pow2 (ulpExp m)) := by
  obtain ⟨lo, hi⟩ := ilog2_spec h
  have e53 : (2 : ℚ) ^ 53 = pow2 53 := by rw [pow2_eq_zpow]; norm_cast
  have e52 : (2 : ℚ) ^ 52 = pow2 52 := by rw [pow2_eq_zpow]; norm_cast
  unfold ulpExp
  refine ⟨by omega, ?_, fun hc => ?_⟩
  · rw [div_lt_iff₀ (pow2_pos _), e53, ← pow2_add]
    exact hi.trans_le (pow2_le (by omega))
  · rw [le_div_iff₀ (pow2_pos _), e52, ← pow2_add]
    exact (pow2_le (by omega)).trans lo

/-- A positive rational below the threshold has a spacing of at most 2^971, and where it is 2^971 it rounds below 2^53. -/
theorem ulpExp_le {m : ℚ} (h : 0 < m) (hl : m < rnd64Limit) : ulpExp m ≤ 971 := by
  obtain ⟨lo, -⟩ := ilog2_spec h
  have h1 : m < pow2 1024 := hl.trans (by have := pow2_pos 970; unfold rnd64Limit; linarith)
  have : ilog2 m < 1024 := by
    by_contra hc
    exact absurd (lo.trans_lt h1) (not_lt.mpr (pow2_le (by omega)))
  unfold ulpExp
  omega

/-- The scaled and rounded magnitude: between 0 and 2^53, from 2^52 on above the subnormals, and below 2^53 at the top. -/
theorem rounded_spec {m : ℚ} (h : 0 < m) (hl : m < rnd64Limit) :
    0 ≤ roundHalfEven (m / pow2 (ulpExp m)) ∧ roundHalfEven (m / pow2 (ulpExp m)) ≤ 2 ^ 53 ∧
    (-1074 < ulpExp m → 2 ^ 52 ≤ roundHalfEven (m / pow2 (ulpExp m))) ∧
    (ulpExp m = 971 → roundHalfEven (m / pow2 (ulpExp m)) < 2 ^ 53) := by
  obtain ⟨-, h2, h3⟩ := ulpExp_spec h
  refine ⟨roundHalfEven_ge (by push_cast; exact (div_pos h (pow2_pos _)).le), roundHalfEven_le (by push_cast; exact h2.le),
    fun hc => roundHalfEven_ge (by push_cast; exact h3 hc), fun hc => ?_⟩
  have h4 : m / pow2 971 < 2 ^ 53 - 1 / 2 := by
    rw [div_lt_iff₀ (pow2_pos _)]
    have e1 : pow2 1024 = 2 ^ 53 * pow2 971 := by
      rw [show (1024 : ℤ) = 53 + 971 by norm_num, pow2_add, pow2_eq_zpow 53]; norm_cast
    have e2 : pow2 971 = 2 * pow2 970 := by
      rw [show (971 : ℤ) = 1 + 970 by norm_num, pow2_add, pow2_eq_zpow 1]; norm_num
    unfold rnd64Limit at hl
    linarith
  have h5 := roundHalfEven_spec (m / pow2 971)
  rw [hc]
  have h6 := abs_le.mp h5.1
  have : (roundHalfEven (m / pow2 971) : ℚ) < 2 ^ 53 := by linarith [h6.2]
  exact_mod_cast this

/-- The pattern `rnd64` computes for a magnitude denotes the rounded multiple of the spacing (00_scope.md R16, R18). -/
theorem rnd64Magnitude_value {m : ℚ} (h : 0 < m) (hl : m < rnd64Limit) :
    (rnd64Magnitude m : ℤ) = (ulpExp m + 1074) * 2 ^ 52 + roundHalfEven (m / pow2 (ulpExp m)) ∧
    rnd64Magnitude m < 2047 * 2 ^ 52 ∧
    fieldMagnitude (rnd64Magnitude m / 2 ^ 52) (rnd64Magnitude m % 2 ^ 52) =
      pow2 (ulpExp m) * roundHalfEven (m / pow2 (ulpExp m)) := by
  obtain ⟨hu, -, -⟩ := ulpExp_spec h
  have hu' := ulpExp_le h hl
  obtain ⟨k0, k1, k2, k3⟩ := rounded_spec h hl
  generalize hk : roundHalfEven (m / pow2 (ulpExp m)) = k at *
  generalize hU : ulpExp m = u at *
  have hM : (rnd64Magnitude m : ℤ) = (u + 1074) * 2 ^ 52 + k := by
    unfold rnd64Magnitude
    rw [hU, hk]
    exact Int.toNat_of_nonneg (by omega)
  generalize rnd64Magnitude m = n at *
  refine ⟨hM, by omega, ?_⟩
  have h52 : pow2 52 = 2 ^ 52 := by rw [pow2_eq_zpow]; norm_cast
  have hnorm : ∀ (e f : ℕ), e ≠ 0 → fieldMagnitude e f = pow2 ((e : ℤ) - 1075) * (2 ^ 52 + f) := by
    intro e f he
    have : pow2 ((e : ℤ) - 1023) = pow2 ((e : ℤ) - 1075) * 2 ^ 52 := by
      rw [← h52, ← pow2_add]; congr 1; ring
    rw [fieldMagnitude, if_neg he, h52, this]
    field_simp
  by_cases hs : n / 2 ^ 52 = 0
  · have hu1 : u = -1074 := by
      by_contra hc
      have := k2 (by omega)
      omega
    have hf : ((n % 2 ^ 52 : ℕ) : ℤ) = k := by omega
    rw [hs, fieldMagnitude, if_pos rfl, hu1, ← hf]
    norm_cast
  · rw [hnorm _ _ hs]
    by_cases ht : k = 2 ^ 53
    · have he : ((n / 2 ^ 52 : ℕ) : ℤ) = u + 1076 := by omega
      have hf : n % 2 ^ 52 = 0 := by omega
      rw [he, hf, ht]
      have : pow2 (u + 1076 - 1075) = pow2 u * 2 := by
        rw [show u + 1076 - 1075 = u + 1 by ring, pow2_add, pow2_eq_zpow 1]; norm_num
      rw [this]
      push_cast
      ring
    · have he : ((n / 2 ^ 52 : ℕ) : ℤ) = u + 1075 := by omega
      have hf : ((n % 2 ^ 52 : ℕ) : ℤ) = k - 2 ^ 52 := by omega
      have hf' : ((n % 2 ^ 52 : ℕ) : ℚ) = k - 2 ^ 52 := by
        rw [← Int.cast_natCast (n % 2 ^ 52), hf]
        push_cast
        rfl
      rw [he, hf', show u + 1075 - 1075 = u by ring]
      ring

/-- A rounded value's sign and magnitude, for a nonzero result. -/
theorem rnd64Bits_eq {q : ℚ} (h : q ≠ 0) (hm : rnd64Magnitude |q| ≠ 0) :
    rnd64Bits q = BitVec.ofNat 64 ((if q < 0 then 2 ^ 63 else 0) + rnd64Magnitude |q|) := by
  simp only [rnd64Bits, if_neg h, if_neg hm]
  split_ifs <;> simp

/-- A pattern's value by its sign, exponent and fraction (00_scope.md R16). -/
theorem f64Value_eq (p : Word) :
    f64Value p = (if p.msb then -1 else 1) * fieldMagnitude (expField p) (fracField p) := by
  unfold f64Value fieldMagnitude
  simp only
  split_ifs <;> ring

/-- Below the threshold the rounded pattern is finite, and denotes the rounded multiple of the spacing with q's sign. -/
theorem rnd64Bits_value {q : ℚ} (h : q ≠ 0) (hl : |q| < rnd64Limit) :
    isFinite (rnd64Bits q) = true ∧ f64Value (rnd64Bits q) =
      (if q < 0 then -1 else 1) * (pow2 (ulpExp |q|) * roundHalfEven (|q| / pow2 (ulpExp |q|))) := by
  obtain ⟨-, hb, hv⟩ := rnd64Magnitude_value (abs_pos.mpr h) hl
  by_cases hm : rnd64Magnitude |q| = 0
  · have : rnd64Bits q = 0 := by simp [rnd64Bits, h, hm]
    rw [this, ← hv, hm, show f64Value 0 = 0 by decide +kernel]
    exact ⟨by decide, by simp [fieldMagnitude]⟩
  · rw [rnd64Bits_eq h hm, f64Value_eq, ← hv]
    by_cases hq : q < 0
    · obtain ⟨e, f, s⟩ := fields_ofNat_neg (n := rnd64Magnitude |q|) (by omega)
      simp only [hq, if_true]
      rw [isFinite_iff, e, f, s]
      exact ⟨by omega, by simp⟩
    · obtain ⟨e, f, s⟩ := fields_ofNat (n := rnd64Magnitude |q|) (by omega)
      simp only [hq, if_false, zero_add]
      rw [isFinite_iff, e, f, s]
      exact ⟨by omega, by simp⟩

/-- Every finite magnitude is a multiple of the spacing 2^u, or lies below 2^(u+52) (00_scope.md R16). -/
theorem fieldMagnitude_multiple (e f : ℕ) (hf : f < 2 ^ 52) {u : ℤ} (hu : -1074 ≤ u) :
    (∃ j : ℕ, fieldMagnitude e f = pow2 u * j) ∨ (-1074 < u ∧ fieldMagnitude e f < pow2 (u + 52)) := by
  have h52 : pow2 52 = 2 ^ 52 := by rw [pow2_eq_zpow]; norm_cast
  have hfq : (f : ℚ) < 2 ^ 52 := by exact_mod_cast hf
  have key : ∀ (a : ℤ) (j : ℕ), u ≤ a → ∃ i : ℕ, pow2 a * j = pow2 u * i := by
    intro a j ha
    obtain ⟨d, rfl⟩ : ∃ d : ℕ, a = u + d := ⟨(a - u).toNat, by omega⟩
    refine ⟨2 ^ d * j, ?_⟩
    rw [pow2_add, pow2_eq_zpow d, zpow_natCast]
    push_cast
    ring
  unfold fieldMagnitude
  split_ifs with he
  · rcases hu.eq_or_lt with rfl | hlt
    · exact .inl ⟨f, rfl⟩
    · refine .inr ⟨hlt, ?_⟩
      calc pow2 (-1074) * f < pow2 (-1074) * pow2 52 := by
            rw [h52]; exact mul_lt_mul_of_pos_left hfq (pow2_pos _)
        _ = pow2 (-1074 + 52) := (pow2_add _ _).symm
        _ ≤ pow2 (u + 52) := pow2_le (by omega)
  · have hv : pow2 ((e : ℤ) - 1023) * (1 + f / pow2 52) = pow2 ((e : ℤ) - 1075) * ((2 ^ 52 + f : ℕ) : ℚ) := by
      have : pow2 ((e : ℤ) - 1023) = pow2 ((e : ℤ) - 1075) * 2 ^ 52 := by
        rw [← h52, ← pow2_add]; congr 1; ring
      rw [h52, this]
      push_cast
      field_simp
      norm_num
    rw [hv]
    by_cases hc : u ≤ (e : ℤ) - 1075
    · exact .inl (key _ _ hc)
    · refine .inr ⟨by omega, ?_⟩
      calc pow2 ((e : ℤ) - 1075) * ((2 ^ 52 + f : ℕ) : ℚ) < pow2 ((e : ℤ) - 1075) * pow2 53 := by
            refine mul_lt_mul_of_pos_left ?_ (pow2_pos _)
            rw [show (53 : ℤ) = 1 + 52 by norm_num, pow2_add, pow2_eq_zpow 1, h52]
            push_cast
            linarith
        _ = pow2 ((e : ℤ) - 1022) := by rw [← pow2_add]; congr 1; ring
        _ ≤ pow2 (u + 52) := pow2_le (by omega)

end Sys2Proof.Machine
end

