-- ==== Sys2Proof/Laws/Rules.lean ====
section
/-! SUPPORT. One lemma per shared part of the commands' rules: when reading an operand, rounding a result, checking a
contract and reading or writing four values succeed, and what they raise when they do not. -/

namespace Sys2Proof.Machine

/-- A command answers a next state: its rule's results committed, or its rule's fault latched. -/
theorem exec_cases {i : Instr} {s t : State} (h : exec i s = .next t) :
    (∃ x, commandRule i s.x = .ok x ∧ t = complete x s) ∨
      ∃ f, commandRule i s.x = .error f ∧ t = latchFault f.kind f.detail s := by
  rw [exec_eq_finish] at h
  exact finish_cases h

theorem exec_of_ok {i : Instr} {s : State} {x : Regs} (h : commandRule i s.x = .ok x) :
    exec i s = .next (complete x s) := by
  rw [exec_eq_finish, h, finish_ok]

theorem exec_of_error {i : Instr} {s : State} {f : Raise} (h : commandRule i s.x = .error f) :
    exec i s = .next (latchFault f.kind f.detail s) := by
  rw [exec_eq_finish, h, finish_error]

/-- No fault code is 0 (60_exceptions.md R278). -/
theorem code_ne_zero (k : FaultKind) : k.code ≠ 0 := by cases k <;> decide

/-- No access changes which instance this is (log 19). -/
theorem portAccess_instNo (c : PortCycle) (s : State) : (portAccess c s).instNo = s.instNo := by
  unfold portAccess
  split
  · split
    · rcases regWrite_cases c.hIdx c.hWdata s with ⟨i, -, e⟩ | ⟨-, -, e⟩ | ⟨-, -, e⟩ | ⟨-, -, -, e⟩ <;> rw [e]
      · unfold dataWrite
        split <;> rfl
      · unfold ctrlWrite
        simp only
        split <;> rfl
      · unfold commandWrite
        split
        · rfl
        · split <;> rfl
    · rfl
  · rfl

/-- No step changes which instance this is (log 19). -/
theorem step_instNo {s t : State} (h : step s = .next t) : t.instNo = s.instNo := by
  by_cases hr : s.nextPins.rstN = true
  · simp only [step, cycle, hr, if_true] at h
    split at h <;> cases h
    rename_i u hu
    rw [portAccess_instNo]
    unfold engineEdge at hu
    split at hu
    · cases hu; rfl
    · split at hu
      · unfold completeWord at hu
        split at hu
        · rcases exec_cases hu with ⟨x, -, rfl⟩ | ⟨f, -, rfl⟩ <;> rfl
        · cases hu; rfl
      · cases hu; rfl
  · rw [step_reset (by simpa using hr)] at h
    cases h
    rfl

/-! ## Operands and results -/

theorem readF64_eq_ok {x : Regs} {i : Fin 8} {v : ℚ} (h : readF64 x i = .ok v) :
    isFinite (x.get i) = true ∧ v = f64Value (x.get i) := by
  unfold readF64 at h
  split at h <;> simp_all

theorem readF64_eq_error {x : Regs} {i : Fin 8} {r : Raise} (h : readF64 x i = .error r) :
    isFinite (x.get i) = false ∧ r = ⟨.nonfinite, regDetail i⟩ := by
  unfold readF64 at h
  split at h <;> simp_all

/-- What `f64` reads lies below the overflow threshold. -/
theorem readF64_lt {x : Regs} {i : Fin 8} {v : ℚ} (h : readF64 x i = .ok v) : |v| < rnd64Limit := by
  obtain ⟨h1, rfl⟩ := readF64_eq_ok h
  exact abs_f64Value_lt_limit h1

theorem rnd64_eq_error {i : Fin 8} {q : ℚ} {r : Raise} (h : rnd64 i q = .error r) :
    rnd64Limit ≤ |q| ∧ r = ⟨.fprange, regDetail i⟩ := by
  unfold rnd64 at h
  split at h <;> simp_all

/-- A value clamped into [-1, 1] is in range (40_converter.md R142: cannot reach FPRANGE). -/
theorem clamp_lt_limit {v lo hi : ℚ} (h : lo ≤ hi) (h1 : -1 ≤ lo) (h2 : hi ≤ 1) : |clamp v lo hi| < rnd64Limit := by
  have := clamp_mem v lo hi h
  have := two_pow_100_lt_limit
  rw [abs_lt]
  constructor <;> linarith

/-! ## Contracts -/

theorem contract_ok {w l : ℕ} (h : w + l ≤ 64) : contract w l = .ok () := by
  simp [contract, show w ≤ 64 by omega, h]

theorem contract_wide {w l : ℕ} (h : 64 < w) : contract w l = .error ⟨.contract, 0x80⟩ := by
  simp [contract, show ¬w ≤ 64 by omega]

theorem contract_high {w l : ℕ} (h1 : w ≤ 64) (h2 : 64 < w + l) : contract w l = .error ⟨.contract, 0x81⟩ := by
  simp [contract, h1, show ¬w + l ≤ 64 by omega]

/-! ## Four values -/

/-- All four values of a block lie below the overflow threshold. -/
def Quad.inRange (q : Quad) : Prop :=
  |q.v1| < rnd64Limit ∧ |q.v2| < rnd64Limit ∧ |q.v3| < rnd64Limit ∧ |q.v4| < rnd64Limit

theorem readQuad_eq_ok {x : Regs} {q : Quad} (h : readQuad x = .ok q) :
    q = ⟨f64Value x.x0, f64Value x.x1, f64Value x.x2, f64Value x.x3⟩ ∧ q.inRange := by
  unfold readQuad at h
  obtain ⟨a, ha, h⟩ := rule_bind_eq_ok h
  obtain ⟨b, hb, h⟩ := rule_bind_eq_ok h
  obtain ⟨c, hc, h⟩ := rule_bind_eq_ok h
  obtain ⟨d, hd, h⟩ := rule_bind_eq_ok h
  have hr : Quad.inRange ⟨a, b, c, d⟩ := ⟨readF64_lt ha, readF64_lt hb, readF64_lt hc, readF64_lt hd⟩
  obtain ⟨-, rfl⟩ := readF64_eq_ok ha
  obtain ⟨-, rfl⟩ := readF64_eq_ok hb
  obtain ⟨-, rfl⟩ := readF64_eq_ok hc
  obtain ⟨-, rfl⟩ := readF64_eq_ok hd
  cases h
  exact ⟨rfl, hr⟩

theorem readQuad_eq_error {x : Regs} {r : Raise} (h : readQuad x = .error r) :
    ∃ i : Fin 8, i ≤ 3 ∧ r = ⟨.nonfinite, regDetail i⟩ := by
  unfold readQuad at h
  rcases rule_bind_eq_error h with h | ⟨_, -, h⟩
  · exact ⟨0, by decide, (readF64_eq_error h).2⟩
  rcases rule_bind_eq_error h with h | ⟨_, -, h⟩
  · exact ⟨1, by decide, (readF64_eq_error h).2⟩
  rcases rule_bind_eq_error h with h | ⟨_, -, h⟩
  · exact ⟨2, by decide, (readF64_eq_error h).2⟩
  rcases rule_bind_eq_error h with h | ⟨_, -, h⟩
  · exact ⟨3, by decide, (readF64_eq_error h).2⟩
  cases h

theorem writeQuad_inRange {x : Regs} {q : Quad} (h : q.inRange) :
    writeQuad x q = .ok { x with
      x0 := rnd64Bits q.v1, x1 := rnd64Bits q.v2, x2 := rnd64Bits q.v3, x3 := rnd64Bits q.v4 } := by
  obtain ⟨h1, h2, h3, h4⟩ := h
  simp [writeQuad, rnd64_inRange, *]

theorem writeQuad_eq_error {x : Regs} {q : Quad} {r : Raise} (h : writeQuad x q = .error r) :
    ∃ i : Fin 8, i ≤ 3 ∧ r = ⟨.fprange, regDetail i⟩ := by
  unfold writeQuad at h
  rcases rule_bind_eq_error h with h | ⟨_, -, h⟩
  · exact ⟨0, by decide, (rnd64_eq_error h).2⟩
  rcases rule_bind_eq_error h with h | ⟨_, -, h⟩
  · exact ⟨1, by decide, (rnd64_eq_error h).2⟩
  rcases rule_bind_eq_error h with h | ⟨_, -, h⟩
  · exact ⟨2, by decide, (rnd64_eq_error h).2⟩
  rcases rule_bind_eq_error h with h | ⟨_, -, h⟩
  · exact ⟨3, by decide, (rnd64_eq_error h).2⟩
  cases h

/-- The forward transform keeps a block in range: DCT cannot raise FPRANGE (43_dct_quant.md R212). -/
theorem dctForward_inRange {q : Quad} (h : q.inRange) : (dctForward q).inRange := by
  obtain ⟨h1, h2, h3, h4⟩ := h
  have n2 := h2
  have n3 := h3
  have n4 := h4
  rw [← abs_neg] at n2 n3 n4
  refine ⟨abs_quarter_lt h1 h2 h3 h4, ?_, ?_, ?_⟩
  · simpa [dctForward, sub_eq_add_neg] using abs_quarter_lt h1 n2 h3 n4
  · simpa [dctForward, sub_eq_add_neg] using abs_quarter_lt h1 h2 n3 n4
  · simpa [dctForward, sub_eq_add_neg] using abs_quarter_lt h1 n2 n3 h4

theorem abs_i64_le (p : Word) : |((i64 p : ℤ) : ℚ)| ≤ 2 ^ 63 := by
  have h1 : ((-2 ^ 63 : ℤ) : ℚ) ≤ (i64 p : ℚ) := by exact_mod_cast (BitVec.le_toInt p : -2 ^ 63 ≤ i64 p)
  have h2 : ((i64 p : ℤ) : ℚ) < ((2 ^ 63 : ℤ) : ℚ) := by exact_mod_cast (BitVec.toInt_lt : i64 p < 2 ^ 63)
  push_cast at h1 h2
  rw [abs_le]
  constructor <;> linarith

/-- A quantized record dequantizes in range: DEQUANT cannot raise FPRANGE (43_dct_quant.md R217). -/
theorem dequant_inRange (x : Regs) : (dctInverse (dequantCoefficients x)).inRange := by
  have h0 : ((u64 x.x0 : ℕ) : ℚ) < 2 ^ 64 := by exact_mod_cast u64_lt x.x0
  have h0' : (0 : ℚ) ≤ ((u64 x.x0 : ℕ) : ℚ) := by positivity
  have h1 := abs_le.mp (abs_i64_le x.x1)
  have h2 := abs_le.mp (abs_i64_le x.x2)
  have h3 := abs_le.mp (abs_i64_le x.x3)
  have := two_pow_100_lt_limit
  simp only [Quad.inRange, dctInverse, dequantCoefficients, dcScale, acScale]
  refine ⟨?_, ?_, ?_, ?_⟩ <;> rw [abs_lt] <;> constructor <;> linarith [h1.1, h1.2, h2.1, h2.2, h3.1, h3.2]

end Sys2Proof.Machine
end

