-- ==== Sys2Proof/Tests/Slice0.lean ====
section
/-! SUPPORT. Tests: the well-formedness smoke, decoding of words written out from 30_encoding.md R111 and R114, one or two
steps for each command with the values of 95_test_vectors.md and of the rules' examples, and, for each statement with
hypotheses, a witness that meets them. -/

-- One theorem at a time: with a thread for each, the many small kernel checks pass the checker's memory limit.
set_option Elab.async false

namespace Sys2Proof.Tests

open Sys2Proof.Machine

/-! ## Helpers -/

/-- A state after reset but for X0..X7, with a word in its last cycle in flight. -/
def lastCycle (x : Regs) (cmd : Word) : State :=
  { State.reset with x := x, inflight := some ⟨cmd, 1⟩, cmdLast := lowHalf cmd }

/-- The next state exists and has the property. -/
def onNext (o : Host.Outcome State Fault Refusal) (p : State → Bool) : Bool :=
  match o with
  | .next t => p t
  | _ => false

/-- One step from `lastCycle` completes the command and leaves these registers. -/
def gives (x : Regs) (cmd : Word) (r : List (Fin 8 × Word)) : Bool :=
  onNext (step (lastCycle x cmd)) fun t => t.cmdCnt == 1 && t.fault == 0 && r.all fun p => t.x.get p.1 == p.2

/-- One step from `lastCycle` latches this fault, with the command's low half, and leaves X0..X7 and CMDCNT. -/
def raises (x : Regs) (cmd : Word) (code detail : Byte) : Bool :=
  onNext (step (lastCycle x cmd)) fun t =>
    t.cmdCnt == 0 && t.x == x && t.fault == code && t.finfo == ⟨lowHalf cmd, detail⟩ && t.inflight == none

theorem onNext_exists {o : Host.Outcome State Fault Refusal} {p : State → Bool} (h : onNext o p = true) :
    ∃ t, o = .next t ∧ p t = true := by
  cases o with
  | next t => exact ⟨t, rfl, h⟩
  | fault r => cases h
  | refused r => cases h

/-- One access in the next cycle, with the block ready. -/
def withAccess (write : Bool) (idx : Byte) (data : Word) (s : State) : State :=
  { s with port := [accessCycle write idx data] }

/-! ## Well-formedness: a field of 128 and above fits no command word -/

theorem test_wf_fitsu : (Instr.fitsu 128).wellFormed = false := by decide
theorem test_wf_fitss : (Instr.fitss 128).wellFormed = false := by decide
theorem test_wf_sqclamp : (Instr.sqclamp 128).wellFormed = false := by decide
theorem test_wf_getu : (Instr.getu 128 0).wellFormed = false ∧ (Instr.getu 0 128).wellFormed = false := by decide
theorem test_wf_gets : (Instr.gets 128 0).wellFormed = false ∧ (Instr.gets 0 128).wellFormed = false := by decide
theorem test_wf_newu : (Instr.newu 128 0).wellFormed = false ∧ (Instr.newu 0 128).wellFormed = false := by decide
theorem test_wf_news : (Instr.news 128 0).wellFormed = false ∧ (Instr.news 0 128).wellFormed = false := by decide
theorem test_wf_limit : (Instr.getu 127 127).wellFormed = true ∧ (Instr.sqclamp 127).wellFormed = true := by decide

/-! ## Decoding: every word written out bit by bit, `LLLLLLL 0 WWWWWWW OOOOOOOO` (R111, R114) -/

theorem test_decode_control : decode 0b0000000_0_0000000_00000000 = .ok .nop := by decide +kernel

theorem test_decode_converter :
    decode 0b0000000_0_0000000_00000001 = .ok .rgb2ypp ∧ decode 0b0000000_0_0000000_00000010 = .ok .ypp2rgb := by
  decide +kernel

theorem test_decode_codeword :
    decode 0b0000000_0_0000000_00001000 = .ok .pack ∧ decode 0b0000000_0_0000000_00001001 = .ok .unpack := by
  decide +kernel

theorem test_decode_fit_and_get :
    decode 0b0000000_0_0000100_00010000 = .ok (.fitsu 4) ∧ decode 0b0000000_0_1111111_00010001 = .ok (.fitss 127) ∧
    decode 0b0010010_0_0000101_00010010 = .ok (.getu 5 18) ∧ decode 0b0000001_0_1000000_00010011 = .ok (.gets 64 1) := by
  decide +kernel

theorem test_decode_new_and_shift :
    decode 0b0001000_0_0010000_00010100 = .ok (.newu 16 8) ∧ decode 0b0010010_0_0000101_00010101 = .ok (.news 5 18) ∧
    decode 0b0000000_0_0000000_00010110 = .ok .shl ∧ decode 0b0000000_0_0000000_00010111 = .ok .shr ∧
    decode 0b0000000_0_0000000_00011000 = .ok .sar := by decide +kernel

theorem test_decode_dct_quant :
    decode 0b0000000_0_0000000_00100000 = .ok .dct ∧ decode 0b0000000_0_0000000_00100001 = .ok .idct ∧
    decode 0b0000000_0_0000000_00100010 = .ok .avg4 ∧ decode 0b0000000_0_0000000_00100011 = .ok .quant ∧
    decode 0b0000000_0_0000000_00100100 = .ok .dequant := by decide +kernel

theorem test_decode_scaler :
    decode 0b0000000_0_0000000_00101000 = .ok .sqrnd ∧ decode 0b0000000_0_0000101_00101001 = .ok (.sqclamp 5) ∧
    decode 0b0000000_0_0000000_00101010 = .ok .sdq ∧ decode 0b0000000_0_0000000_00101011 = .ok .sattrunc := by
  decide +kernel

/-- R116: the first check that fails names the detail. -/
theorem test_decode_rejects :
    decode 0x03 = .error .reservedOpcode ∧ decode 0x812C = .error .reservedOpcode ∧
    decode 0x8100 = .error .reservedBit ∧ decode 0x8000000000000012 = .error .reservedBit ∧
    decode 0x800012 = .error .reservedBit ∧
    decode 0x100 = .error .unusedField ∧ decode 0x10410 = .error .unusedField := by decide +kernel

theorem test_decodeTableWord : decodeTableWord 64 0x120515 = some (.news 5 18) ∧ decodeTableWord 8 0x120515 = some (.news 0 0) ∧
    decodeTableWord 64 0x2C = none := by decide +kernel

theorem test_withFetchWord :
    onNext (step (State.reset.withFetchWord 64 0x410)) (fun t => t.x.x2 == 1 && t.cmdCnt == 1 && t.cmdLast == 0x410) = true := by
  decide +kernel

/-! ## One command, one step (95_test_vectors.md section 3 and the rules' examples) -/

theorem test_nop : gives ⟨1, 2, 3, 4, 5, 6, 7, 8⟩ 0x0
    [(0, 1), (1, 2), (2, 3), (3, 4), (4, 5), (5, 6), (6, 7), (7, 8)] = true := by decide +kernel

theorem test_rgb2ypp_red : gives ⟨255, 0, 0, 255, 0, 0, 0, 9⟩ 0x1
    [(0, 0x3FD322D0E5604189), (1, 0xBFC5992428D434A0), (2, 0x3FE0000000000000), (3, 255), (7, 9)] = true := by
  decide +kernel
theorem test_rgb2ypp_clamp : gives ⟨0, 510, 0, 255, 0, 0, 0, 0⟩ 0x1
    [(0, 0x3FF0000000000000), (1, 0xBFE0000000000000), (2, 0xBFE0000000000000)] = true := by decide +kernel

theorem test_ypp2rgb_clamp : gives ⟨0x3FE0000000000000, 0x3FE0000000000000, 0, 255, 0, 0, 0, 0⟩ 0x2
    [(0, 127), (1, 83), (2, 255)] = true := by decide +kernel
theorem test_ypp2rgb_nan : raises ⟨0, 0x7FF8000000000000, 0xFFF0000000000000, 0, 0, 0, 0, 0⟩ 0x2 4 1 = true := by
  decide +kernel

theorem test_pack : gives ⟨511, 15, -16, -1, 15, 0, 0, 0⟩ 0x8 [(6, 0x00000000FFBE1FF0), (2, -16)] = true := by
  decide +kernel
theorem test_pack_overflow : raises ⟨511, 15, 16, 16, 0, 0, 0, 0⟩ 0x8 3 2 = true := by decide +kernel

theorem test_unpack : gives ⟨0, 0, 0, 0, 0, 0, 0xABCD000081F8015B, 0⟩ 0x9
    [(0, 259), (1, -2), (2, 0), (3, 1), (4, 5), (5, 11), (6, 0xABCD000081F8015B)] = true := by decide +kernel

theorem test_fitsu : gives ⟨0, 15, 0, 0, 0, 0, 0, 0⟩ 0x410 [(2, 1)] = true ∧
    gives ⟨0, 16, 9, 0, 0, 0, 0, 0⟩ 0x410 [(2, 0)] = true := by decide +kernel
theorem test_fitss : gives ⟨0, -8, 0, 0, 0, 0, 0, 0⟩ 0x411 [(2, 1)] = true ∧
    gives ⟨0, 0, 9, 0, 0, 0, 0, 0⟩ 0x11 [(2, 0)] = true := by decide +kernel

theorem test_getu : gives ⟨0x0123456789ABCDEF, 0, 0, 0, 0, 0, 0, 0⟩ 0x80812 [(2, 0xCD)] = true := by decide +kernel
theorem test_getu_contract : raises ⟨5, 0, 0, 0, 0, 0, 0, 0⟩ 0x4112 2 0x80 = true := by decide +kernel
theorem test_gets : gives ⟨0xF0, 0, 0, 0, 0, 0, 0, 0⟩ 0x40413 [(2, -1)] = true := by decide +kernel

theorem test_newu : gives ⟨0xFFFFFFFFFFFFFFFF, 0, 0, 0, 0, 0, 0, 0⟩ 0x80814 [(2, 0xFFFFFFFFFFFF00FF)] = true := by
  decide +kernel
theorem test_newu_priority : raises ⟨0, -1, 0, 0, 0, 0, 0, 0⟩ 0x4614 2 0x80 = true := by decide +kernel
theorem test_news : gives ⟨0, -1, 0, 0, 0, 0, 0, 0⟩ 0x80515 [(2, 0x1F00)] = true := by decide +kernel
theorem test_news_zero_width : raises ⟨0, 0, 0, 0, 0, 0, 0, 0⟩ 0x15 3 1 = true := by decide +kernel

theorem test_shl : gives ⟨1, 63, 0, 0, 0, 0, 0, 0⟩ 0x16 [(2, 0x8000000000000000)] = true ∧
    gives ⟨1, 64, 9, 0, 0, 0, 0, 0⟩ 0x16 [(2, 0)] = true := by decide +kernel
theorem test_shr : gives ⟨0x8000000000000000, 63, 0, 0, 0, 0, 0, 0⟩ 0x17 [(2, 1)] = true := by decide +kernel
theorem test_sar : gives ⟨0x8000000000000000, 1, 0, 0, 0, 0, 0, 0⟩ 0x18 [(2, 0xC000000000000000)] = true ∧
    gives ⟨0x8000000000000000, -1, 0, 0, 0, 0, 0, 0⟩ 0x18 [(2, -1)] = true := by decide +kernel

theorem test_dct : gives ⟨0x3FF0000000000000, 0x4000000000000000, 0x4008000000000000, 0x4010000000000000, 0, 0, 0, 0⟩ 0x20
    [(0, 0x4004000000000000), (1, 0xBFE0000000000000), (2, 0xBFF0000000000000), (3, 0)] = true := by decide +kernel
theorem test_dct_underflow : gives ⟨1, 0, 0x8000000000000000, 0, 0, 0, 0, 0⟩ 0x20
    [(0, 0), (1, 0), (2, 0), (3, 0)] = true := by decide +kernel
theorem test_idct : gives ⟨0x4004000000000000, 0xBFE0000000000000, 0xBFF0000000000000, 0, 0, 0, 0, 0⟩ 0x21
    [(0, 0x3FF0000000000000), (1, 0x4000000000000000), (2, 0x4008000000000000), (3, 0x4010000000000000)] = true := by
  decide +kernel
theorem test_idct_range : raises ⟨0x7FE1CCF385EBC8A0, 0x7FE1CCF385EBC8A0, 0, 0, 0, 0, 0, 0⟩ 0x21 6 0 = true := by
  decide +kernel
theorem test_avg4_largest : gives
    ⟨0x7FEFFFFFFFFFFFFF, 0x7FEFFFFFFFFFFFFF, 0x7FEFFFFFFFFFFFFF, 0x7FEFFFFFFFFFFFFF, 0, 0, 0, 0⟩ 0x22
    [(0, 0x7FEFFFFFFFFFFFFF), (1, 0x7FEFFFFFFFFFFFFF)] = true := by decide +kernel

/-- X4 and X5 go through the chroma table, which is not known; the other results do not depend on it. -/
theorem test_quant_ties : gives ⟨0x3FF0000000000000, 0, 0, 0, 0, 0, 6, 7⟩ 0x23
    [(0, 128), (1, 13), (2, 13), (3, 13), (6, 6), (7, 7)] = true := by decide +kernel
theorem test_quant_negative : raises ⟨0xBFF0000000000000, 0, 0, 0, 0, 0, 0, 0⟩ 0x23 3 0 = true := by decide +kernel
theorem test_dequant : gives ⟨257, 0, 0, 0, 8, 8, 0, 0⟩ 0x24
    [(0, 0x3FE0180C06030181), (3, 0x3FE0180C06030181)] = true := by decide +kernel
theorem test_dequant_contract : raises ⟨0, 0, 0, 0, 15, 16, 0, 0⟩ 0x24 2 5 = true := by decide +kernel

theorem test_sqrnd : gives ⟨0x3FE0000000000000, 0x407FF00000000000, 0, 0, 0, 0, 0, 0⟩ 0x28 [(2, 256)] = true := by
  decide +kernel
theorem test_sqrnd_edge : gives ⟨0xC3E0000000000000, 0x3FF0000000000000, 0, 0, 0, 0, 0, 0⟩ 0x28
      [(2, 0x8000000000000000)] = true ∧
    raises ⟨0x43E0000000000000, 0x3FF0000000000000, 0, 0, 0, 0, 0, 0⟩ 0x28 3 2 = true := by decide +kernel
theorem test_sqclamp : gives ⟨0xBFE0000000000000, 0x4049000000000000, 0, 0, 0, 0, 0, 0⟩ 0x529 [(2, -15)] = true := by
  decide +kernel
theorem test_sqclamp_contract : raises ⟨0x7FF0000000000000, 0, 0, 0, 0, 0, 0, 0⟩ 0x4129 2 0x80 = true := by decide +kernel
theorem test_sdq : gives ⟨15, 0x4049000000000000, 0, 0, 0, 0, 0, 0⟩ 0x2A [(2, 0x3FD3333333333333)] = true := by
  decide +kernel
theorem test_sdq_zero_and_range : raises ⟨0, 0x8000000000000000, 0, 0, 0, 0, 0, 0⟩ 0x2A 5 1 = true ∧
    raises ⟨1, 1, 0, 0, 0, 0, 0, 0⟩ 0x2A 6 2 = true := by decide +kernel
theorem test_sattrunc : gives ⟨0x3FE0101010101010, 255, 0, 0, 0, 0, 0, 0⟩ 0x2B [(2, 127)] = true ∧
    gives ⟨0x3FF0000000000000, -1, 0, 0, 0, 0, 0, 0⟩ 0x2B [(2, -1)] = true := by decide +kernel

/-! ## The register port -/

/-- R288: an X write in the completing cycle overwrites the result, and a CMD write there is accepted. -/
theorem test_port_completion_first :
    onNext (step (withAccess true 0x0A 7 (lastCycle Regs.zero 0x410))) (fun t => t.x.x2 == 7 && t.cmdCnt == 1 && !t.faulted) =
      true ∧
    onNext (step (withAccess true 0x03 0x16 (lastCycle Regs.zero 0x410))) (fun t =>
      t.x.x2 == 1 && t.cmdCnt == 1 && t.cmdLast == 0x16 && t.busy) = true := by decide +kernel

/-- R277: a write while busy. -/
theorem test_port_busy :
    onNext (step (withAccess true 0x0F 7 { State.reset with inflight := some ⟨0x410, 2⟩, cmdLast := 0x410 }))
      (fun t => t.fault == 7 && t.finfo == ⟨0x410, 0x0F⟩ && t.x == Regs.zero && !t.busy && t.cmdLast == 0x410) = true := by
  decide +kernel

/-- R50, R53, R57: reads. -/
theorem test_port_reads :
    onNext (step (withAccess false 0x00 0 State.reset)) (fun t => t.hRdata == some 0x0000000144435432) = true ∧
    onNext (step (withAccess false 0x02 0 { State.reset with fault := 3, fie := true })) (fun t => t.hRdata == some 0x302) =
      true ∧
    onNext (step (withAccess false 0x10 0 State.reset)) (fun t => t.hRdata == some 0) = true := by decide +kernel

/-- R43: without h_ready the access waits. -/
theorem test_port_not_ready :
    onNext (step { State.reset with port := [⟨true, true, false, true, 0x08, 5⟩] }) (fun t => t.x.x0 == 0 && t.port == []) =
      true := by decide +kernel

/-- S9 of 95_test_vectors.md: 0x80800088 in the stream. -/
theorem test_stream_bytes : codewordBytes 0x80800088 = [0x80, 0x80, 0x00, 0x88] ∧
    codewordOfBytes [0x80, 0x80, 0x00, 0x88, 0x01] = some (0x80800088, [0x01]) := by decide +kernel

/-- R119: the assembler rejects operands out of range or not taken. -/
theorem test_assembler : assemble "NEWS" [5, 18] = some 0x120515 ∧ assemble "GETU" [128, 0] = none ∧
    assemble "NOP" [1] = none ∧ assemble "HALT" [] = none := by decide +kernel

/-- R119: a command line is rejected where the assembler rejects it. -/
theorem test_command_line : commandLine (.getu 8 8) = some [.wr 0x03 (.lit 0x80812)] ∧ commandLine (.getu 128 0) = none ∧
    runCommand (.fitsu 128) "w1" = none := by decide +kernel

/-- R121: LDI Xn of an integer, and its range. -/
theorem test_load_int : loadInt 1 (-1) = some [.wr 0x09 (.lit (-1))] ∧ loadInt 1 (2 ^ 64) = none := by decide +kernel

/-! ## Witnesses: states and operands that meet the hypotheses of the statements, at the boundaries of their ranges -/

/-- A word with 2 cycles left, and one with 1. -/
def counting (cmd : Word) (left : ℕ) : State := { State.reset with inflight := some ⟨cmd, left⟩, cmdLast := lowHalf cmd }

/-- A faulted state. -/
def faulty : State := { State.reset with fault := 3, finfo := ⟨0x8, 1⟩, cmdLast := 0x8 }

theorem completes_exists {i : Instr} {s : State} {p : State → Bool}
    (h : onNext (exec i s) (fun t => t.cmdCnt == s.cmdCnt + 1 && p t) = true) :
    ∃ t, exec i s = .next t ∧ t.cmdCnt = s.cmdCnt + 1 ∧ p t = true := by
  obtain ⟨t, h1, h2⟩ := onNext_exists h
  simp only [Bool.and_eq_true, beq_iff_eq] at h2
  exact ⟨t, h1, h2.1, h2.2⟩

/-- A state after reset but for X0..X7. -/
def withRegs (x : Regs) : State := { State.reset with x := x }

theorem witness_DecodeOfEncode : (Instr.getu 127 127).wellFormed = true ∧ (Instr.fitss 0).wellFormed = true ∧
    Instr.nop.wellFormed = true := by decide
theorem witness_EncodeOfDecode : decode 0x7F7F15 = .ok (.news 127 127) := by decide +kernel

/-- One word for each of the four clauses: a reserved opcode, a reserved bit, an unused field, a command. -/
theorem witness_DecodeAtCompletion :
    ([0x2C, 0x8000, 0x8000000000000000, 0x10410, 0x7F7F12] : List Word).all (fun cmd =>
      (counting cmd 1).inflight == some ⟨cmd, 1⟩ && (counting cmd 1).nextPins.quiet) = true ∧
    decode 0x2C = .error .reservedOpcode ∧ decode 0x8000 = .error .reservedBit ∧
    decode 0x8000000000000000 = .error .reservedBit ∧ decode 0x10410 = .error .unusedField ∧
    decode 0x7F7F12 = .ok (.getu 127 127) := by decide +kernel

theorem witness_StepRunsDecodedCommand : (counting 0x16 1).inflight = some ⟨0x16, 1⟩ ∧ (1 : ℕ) ≤ 1 ∧
    (counting 0x16 1).nextPins.rstN = true ∧ decode 0x16 = .ok .shl := by decide +kernel
theorem witness_InFlightCountsDown : (counting 0x16 2).nextPins.quiet = true ∧
    (counting 0x16 2).inflight = some ⟨0x16, 0 + 2⟩ ∧ State.reset.nextPins.quiet = true ∧ State.reset.inflight = none := by
  decide +kernel
theorem witness_InFlightCommandCompletes :
    (counting 0x16 3).inflight = some ⟨0x16, 2 + 1⟩ ∧ (∀ c ∈ (counting 0x16 3).port, c.quiet = true) ∧
    decode 0x16 = .ok .shl ∧ decode 0x19 = .error .reservedOpcode := by decide +kernel
theorem witness_HardwareResetCycle :
    ({ counting 0x16 1 with port := [⟨false, true, true, true, 8, 5⟩] } : State).nextPins.rstN = false := by decide

/-- Each of the three ways to a reset state. -/
theorem witness_ResetValues :
    (∃ t, { faulty with port := [⟨false, false, false, false, 0, 0⟩] }.nextPins.rstN = false ∧
      step { faulty with port := [⟨false, false, false, false, 0, 0⟩] } = .next t) ∧
    (∃ t, (0x3 : Word).getLsbD 1 = true ∧ t = regWrite 0x01 0x3 faulty ∧ t.hRdata = none) := by
  refine ⟨?_, _, by decide, rfl, by decide⟩
  obtain ⟨t, h, -⟩ := onNext_exists (o := step { faulty with port := [⟨false, false, false, false, 0, 0⟩] })
    (p := fun _ => true) (by decide +kernel)
  exact ⟨t, by decide, h⟩

/-- A word in its last cycle meets the invariant, whatever the word, the pins to come and the count of completions. -/
theorem counting_inv (cmd : Word) (p : List PortCycle) (n : Half) :
    ({ counting cmd 1 with port := p, cmdCnt := n } : State).Inv where
  busyNotFaulted _ := rfl
  inflightLow := by
    rintro f hf
    cases hf
    rfl
  cyclesLeft := by
    rintro f hf
    cases hf
    exact ⟨le_rfl, Nat.succ_le_succ (Nat.zero_le _)⟩
  faultLegal := rfl
  finfoClear _ := rfl
  finfoWord h := absurd rfl h

theorem witness_StepKeepsInvariant : (counting 0x16 1).Inv ∧ ∃ t, step (counting 0x16 1) = .next t := by
  obtain ⟨t, h, -⟩ := onNext_exists (o := step (counting 0x16 1)) (p := fun _ => true) (by decide +kernel)
  exact ⟨counting_inv 0x16 [] 0, t, h⟩

theorem witness_WritesOnlyListedRegisters :
    (∃ t, exec .pack (withRegs ⟨511, -16, 15, 0, 15, 15, 3, 4⟩) = .next t) ∧ (7 : Fin 8) ∉ writesOf .pack := by
  obtain ⟨t, h, -⟩ := onNext_exists (o := exec .pack (withRegs ⟨511, -16, 15, 0, 15, 15, 3, 4⟩)) (p := fun _ => true)
    (by decide +kernel)
  exact ⟨⟨t, h⟩, by decide⟩

theorem witness_ReadsOnlyListedRegisters :
    (∀ r ∈ readsOf .shl, (⟨1, 2, 9, 9, 9, 9, 9, 9⟩ : Regs).get r = (withRegs ⟨1, 2, 3, 4, 5, 6, 7, 8⟩).x.get r) ∧
    (∃ t, exec .shl (withRegs ⟨1, 2, 3, 4, 5, 6, 7, 8⟩) = .next t ∧ t.cmdCnt = 0 + 1 ∧ true = true) ∧
    ∃ t, exec .shl { withRegs ⟨1, 2, 3, 4, 5, 6, 7, 8⟩ with x := ⟨1, 2, 9, 9, 9, 9, 9, 9⟩ } = .next t :=
  ⟨by decide, completes_exists (by decide +kernel), _, rfl⟩

/-- Both outcomes: a completion, and a fault. -/
theorem witness_ExecutionFrame :
    (∃ t, exec .sdq (withRegs ⟨15, 0x4049000000000000, 0, 0, 0, 0, 0, 0⟩) = .next t ∧ t.cmdCnt = 0 + 1 ∧ true = true) ∧
    ∃ t, exec .sdq (withRegs ⟨15, 0, 0, 0, 0, 0, 0, 0⟩) = .next t ∧ (t.cmdCnt == 0 && t.fault == 5) = true :=
  ⟨completes_exists (by decide +kernel), onNext_exists (by decide +kernel)⟩

theorem witness_FaultsByCommand :
    ∃ t, exec .pack (withRegs ⟨0, 0, 0, 0, 0, 16, 0, 0⟩) = .next t ∧ (t.fault == 3 && t.finfo.detail == 5) = true :=
  onNext_exists (by decide +kernel)

theorem witness_NopCompletes : (0x8000000000000000 : Word).extractLsb' 0 8 = 0 ∧ (0x8000000000000000 : Word) ≠ 0 := by
  decide +kernel
theorem witness_FieldContract : (64 + 0 ≤ 64 ∧ 0 + 64 ≤ 64 ∧ 1 + 63 ≤ 64) ∧ 64 < 65 ∧ (64 ≤ 64 ∧ 64 < 64 + 1) ∧
    ((0 : ℕ) ≤ 64 ∧ 64 < 0 + 65) := by decide

/-- Each clause: values at and beyond the limits of a width, W = 0 among them. -/
theorem witness_NewFields :
    (4 + 60 ≤ 64 ∧ (15 : Word).toNat ≤ 2 ^ 4 - 1 ∧ ¬(16 : Word).toNat ≤ 2 ^ 4 - 1 ∧ (0 : Word).toNat ≤ 2 ^ 0 - 1) ∧
    (1 ≤ 5 ∧ -2 ^ (5 - 1) ≤ (-16 : Word).toInt ∧ (-16 : Word).toInt ≤ 2 ^ (5 - 1) - 1) ∧
    ¬(1 ≤ 5 ∧ -2 ^ (5 - 1) ≤ (-17 : Word).toInt ∧ (-17 : Word).toInt ≤ 2 ^ (5 - 1) - 1) ∧
    ¬(1 ≤ 0 ∧ -2 ^ (0 - 1) ≤ (0 : Word).toInt ∧ (0 : Word).toInt ≤ 2 ^ (0 - 1) - 1) := by decide +kernel

theorem witness_FieldRoundTrip :
    (∃ t, exec (.newu 0 64) (withRegs ⟨7, 0, 0, 0, 0, 0, 0, 0⟩) = .next t ∧ t.cmdCnt = 0 + 1 ∧ (t.x.x2 == 7) = true) ∧
    ∃ t, exec (.news 64 0) (withRegs ⟨7, 0x8000000000000000, 0, 0, 0, 0, 0, 0⟩) = .next t ∧ t.cmdCnt = 0 + 1 ∧
      (t.x.x2 == 0x8000000000000000) = true :=
  ⟨completes_exists (by decide +kernel), completes_exists (by decide +kernel)⟩

theorem witness_Shifts : 64 ≤ (64 : Word).toNat ∧ 64 ≤ (-1 : Word).toNat := by decide

/-- All fields at their limits, and each field first to fail. -/
theorem witness_PackResult :
    gives ⟨511, -16, 15, -16, 15, 15, 0, 0⟩ 0x8 [] = true ∧ raises ⟨512, 16, 16, 16, 16, 16, 0, 0⟩ 0x8 3 0 = true ∧
    raises ⟨511, -17, 16, 16, 16, 16, 0, 0⟩ 0x8 3 1 = true ∧ raises ⟨511, 15, -17, 16, 16, 16, 0, 0⟩ 0x8 3 2 = true ∧
    raises ⟨511, 15, 15, 16, 16, 16, 0, 0⟩ 0x8 3 3 = true ∧ raises ⟨511, 15, 15, 15, 16, 16, 0, 0⟩ 0x8 3 4 = true ∧
    raises ⟨511, 15, 15, 15, 15, 16, 0, 0⟩ 0x8 3 5 = true := by decide +kernel

theorem witness_PackUnpackBijection :
    (∃ t, exec .pack (withRegs ⟨511, -16, 15, -16, 15, 15, 0, 0⟩) = .next t ∧ t.cmdCnt = 0 + 1 ∧ true = true) ∧
    (∃ t, exec .unpack (withRegs ⟨0, 0, 0, 0, 0, 0, -1, 0⟩) = .next t ∧ t.cmdCnt = 0 + 1 ∧ true = true) ∧
    ∃ t, exec .quant (withRegs ⟨0x3FF0000000000000, 0, 0, 0, 0, 0, 0, 0⟩) = .next t ∧ t.cmdCnt = 0 + 1 ∧ true = true :=
  ⟨completes_exists (by decide +kernel), completes_exists (by decide +kernel), completes_exists (by decide +kernel)⟩

theorem witness_StreamByteOrder : ([1, 2, 3] : List Byte).length < 4 := by decide
theorem witness_Rgb2yppResult : (1 : Word) ≠ 0 ∧ (0 : Word) = 0 := by decide

theorem witness_GrayHasNoChroma :
    ∃ t, exec .rgb2ypp (withRegs ⟨128, 128, 128, 1, 0, 0, 0, 0⟩) = .next t ∧ t.cmdCnt = 0 + 1 ∧
      (t.x.x0 == 0x3FF0000000000000) = true := completes_exists (by decide +kernel)

/-- Finite operands at the largest exponent, and the first non-finite operand of each list. -/
theorem witness_Operands :
    firstNonFinite ⟨0x7FEFFFFFFFFFFFFF, 0x8000000000000000, 1, 0xFFEFFFFFFFFFFFFF, 0, 0, 0, 0⟩ [0, 1, 2, 3] = none ∧
    firstNonFinite ⟨0, 0, 0, 0, 0, 0x7FF0000000000000, 0, 0⟩ [0, 1, 2, 3, 4, 5] = some 5 ∧
    firstNonFinite ⟨0, 0, 0, 0xFFF0000000000001, 0, 0, 0, 0⟩ [0, 1, 2, 3] = some 3 ∧
    firstNonFinite ⟨0, 0, 0x7FF8000000000000, 0, 0, 0, 0, 0⟩ [0, 1, 2] = some 2 ∧
    firstNonFinite ⟨0, 0, 0, 0, 0, 0, 0, 0⟩ [0, 1, 2] = none ∧
    firstNonFinite ⟨0, 0x7FF8000000000000, 0x7FF8000000000000, 0, 0, 0, 0, 0⟩ [0, 1] = some 1 ∧
    firstNonFinite ⟨0, 0, 0x7FF8000000000000, 0, 0, 0, 0, 0⟩ [0, 1] = none ∧
    firstNonFinite ⟨0, 0, 0, 0, 0, 0, 0x7FF8000000000000, 0⟩ [0, 1, 2, 3, 4, 5] = none ∧
    isFinite 0x7FF0000000000000 = false := by decide +kernel

/-- The largest finite value fits, and twice it does not. -/
theorem witness_IdctResult :
    |f64Value 0x7FEFFFFFFFFFFFFF| < rnd64Limit ∧ ¬|f64Value 0x7FEFFFFFFFFFFFFF + f64Value 0x7FEFFFFFFFFFFFFF| < rnd64Limit ∧
    raises ⟨0x7FEFFFFFFFFFFFFF, 0xFFEFFFFFFFFFFFFF, 0, 0, 0, 0, 0, 0⟩ 0x21 6 1 = true := by decide +kernel

/-- qA at 0, at the top of the register, and beyond either end. -/
theorem witness_QuantResult :
    gives ⟨0x8000000000000001, 0, 0, 0, 0, 0, 0, 0⟩ 0x23 [(0, 0)] = true ∧
    gives ⟨0x43DFFFFFFFFFFFFF, 0, 0, 0, 0, 0, 0, 0⟩ 0x23 [] = false ∧
    gives ⟨0x4370000000000000, 0, 0, 0, 0, 0, 0, 0⟩ 0x23 [(0, 0x7FC0000000000000)] = true ∧
    raises ⟨0x43DFFFFFFFFFFFFF, 0, 0, 0, 0, 0, 0, 0⟩ 0x23 3 0 = true ∧
    raises ⟨0xBFF0000000000000, 0, 0, 0, 0, 0, 0, 0⟩ 0x23 3 0 = true := by decide +kernel

theorem witness_DequantResult : (15 : Word).toNat ≤ 15 ∧ 15 < (16 : Word).toNat := by decide

/-- The rounded product at both ends of a signed register, and beyond them. -/
theorem witness_SqrndResult :
    roundHA (f64Value 0xC3E0000000000000 * f64Value 0x3FF0000000000000) = -2 ^ 63 ∧
    roundHA (f64Value 0x43E0000000000000 * f64Value 0x3FF0000000000000) = 2 ^ 63 ∧
    roundHA (f64Value 0xC3E0000000000001 * f64Value 0x3FF0000000000000) < -2 ^ 63 := by decide +kernel
theorem witness_SqclampResult : (0 : ℕ) ≤ 64 ∧ (64 : ℕ) ≤ 64 ∧ (64 : ℕ) < 65 := by decide

theorem witness_SdqResult :
    (isFinite 1 = true ∧ f64Value 1 ≠ 0 ∧ ¬|((1 : Word).toInt : ℚ) / f64Value 1| < rnd64Limit) ∧
    |((1 : Word).toInt : ℚ) / f64Value 0x0010000000000000| < rnd64Limit ∧ f64Value 0x0010000000000000 ≠ 0 ∧
    isFinite 0x8000000000000000 = true ∧ f64Value 0x8000000000000000 = 0 := by decide +kernel

/-- Y1..Y4 = 1/2: a = 1/2 and b = 0, both representable. -/
theorem witness_ScalerAgreesWithQuantizer :
    (∃ t, exec .quant (withRegs ⟨0x3FE0000000000000, 0x3FE0000000000000, 0x3FE0000000000000, 0x3FE0000000000000, 0, 0, 0, 0⟩) =
      .next t ∧ t.cmdCnt = 0 + 1 ∧ (decide (t.x.x0.toNat < 2 ^ 63)) = true) ∧
    isFinite 0x3FE0000000000000 = true ∧ f64Value 0x3FE0000000000000 =
      (f64Value 0x3FE0000000000000 + f64Value 0x3FE0000000000000 + f64Value 0x3FE0000000000000 + f64Value 0x3FE0000000000000) / 4 ∧
    f64Value 0 =
      (f64Value 0x3FE0000000000000 - f64Value 0x3FE0000000000000 + f64Value 0x3FE0000000000000 - f64Value 0x3FE0000000000000) / 4 ∧
    f64Value 0x407FF00000000000 = 511 ∧ f64Value 0x4049000000000000 = 50 :=
  ⟨completes_exists (by decide +kernel), by decide +kernel, by decide +kernel, by decide +kernel, by decide +kernel,
    by decide +kernel⟩

/-- Just below the threshold, at it, and a tie, half the smallest subnormal, which goes to the even fraction 0. -/
theorem witness_Rnd64IsNearest :
    |rnd64Limit - 1| < rnd64Limit ∧ rnd64Limit ≤ |rnd64Limit| ∧ isFinite 1 = true ∧
    f64Value 1 ≠ f64Value (rnd64Bits (pow2 (-1075))) ∧
    |f64Value (rnd64Bits (pow2 (-1075))) - pow2 (-1075)| = |f64Value 1 - pow2 (-1075)| ∧
    f64Value (rnd64Bits (pow2 (-1075))) = 0 := by decide +kernel
theorem witness_Rnd64KeepsRepresentable : isFinite 0x8000000000000001 = true ∧
    (0x8000000000000001 : Word) ≠ 0x8000000000000000 ∧ isFinite 0xFFEFFFFFFFFFFFFF = true := by decide +kernel
theorem witness_RoundHAIsNearest : |(roundHA (5 / 2) : ℚ) - 5 / 2| = 1 / 2 ∧ roundHA (5 / 2) = 3 ∧ roundHA (-1 / 2) = -1 := by
  decide +kernel
theorem witness_TruncAndClamp : (0 : ℚ) ≤ 0 ∧ (-15 : ℤ) ≤ 15 := by decide
theorem witness_ChromaTableContract : (-1 / 2 : ℚ) ≤ 1 / 2 := by decide +kernel

theorem witness_CommandWriteOutcome :
    (withAccess true 0x03 0xFFFFFFFFFFFFFFFF faulty).nextPins.writes 0x03 0xFFFFFFFFFFFFFFFF = true ∧
    (faulty.inflight = none ∧ faulty.fault ≠ 0) ∧ ((counting 0x16 2).fault = 0 ∧
      (counting 0x16 2).inflight = some ⟨0x16, 0 + 2⟩) ∧ (State.reset.fault = 0 ∧ State.reset.inflight = none) ∧
    onNext (engineEdge exec (afterCycle (counting 0x16 1))) (fun t => t.fault == 0) = true ∧
    onNext (engineEdge exec (afterCycle (counting 0x19 1))) (fun t => t.fault == 1) = true := by decide +kernel

/-- A guarded write, a write to CTRL with either value of bit 1, another write, and a read, while busy. -/
theorem witness_BusyWriteAborts :
    (counting 0x16 2).inflight = some ⟨0x16, 0 + 2⟩ ∧ (counting 0x16 2).fault = 0 ∧
    (∀ c ∈ [accessCycle true 0x03 0, accessCycle true 0x08 0, accessCycle true 0x0F 0],
      c.performs = true ∧ c.hWe = true ∧ guardedIndex c.hIdx = true) ∧
    (∀ c ∈ [accessCycle true 0x01 1, accessCycle true 0x01 2, accessCycle true 0x07 0, accessCycle true 0x10 0],
      c.rstN = true ∧ c.performs = true ∧ c.hWe = true ∧ guardedIndex c.hIdx = false ∧
        onNext (step { counting 0x16 2 with port := [c] }) (fun _ => true) = true) ∧
    (accessCycle false 0x03 0).performs = true ∧ (accessCycle false 0x03 0).hWe = false := by decide +kernel

theorem witness_ReadsHaveNoSideEffect :
    (∀ idx ∈ ([0x00, 0x01, 0x02, 0x03, 0x04, 0x05, 0x06, 0x07, 0x08, 0x0F, 0x10, 0xFF] : List Byte),
      (withAccess false idx 0 (counting 0x16 2)).nextPins.reads idx = true) ∧
    (∀ f, (counting 0x16 2).inflight = some f → 2 ≤ f.left) :=
  ⟨by decide +kernel, by rintro f hf; cases hf; exact le_rfl⟩

theorem witness_CtrlWriteAndSoftReset : (0x1 : Word).getLsbD 1 = false ∧ (0x3 : Word).getLsbD 1 = true := by decide
theorem witness_ReservedIndices : 0x10 ≤ (0x10 : Byte).toNat ∧ 0x10 ≤ (0xFF : Byte).toNat := by decide

/-- In the faulted state: a soft reset, an X write, an FIE write, a read, and an ignored CMD write. -/
theorem witness_FaultedStateHolds :
    faulty.fault ≠ 0 ∧ faulty.inflight = none ∧
    (∀ c ∈ [accessCycle true 0x01 2, accessCycle true 0x0F 5, accessCycle true 0x01 1, accessCycle false 0x02 0,
        accessCycle true 0x03 0],
      c.rstN = true ∧ onNext (step { faulty with port := [c] }) (fun _ => true) = true) := by decide +kernel

/-- A completion and a fault in the cycle of the access. -/
theorem witness_CompletionBeforeAccess :
    (counting 0x16 1).inflight = some ⟨0x16, 1⟩ ∧ decode 0x16 = .ok .shl ∧ (counting 0x16 1).fault = 0 ∧
    (∃ t, exec .shl (afterCycle (withAccess true 0x0A 5 (counting 0x16 1))) = .next t ∧ (t.cmdCnt == 1) = true) ∧
    decode 0x15 = .ok (.news 0 0) ∧ decode 0x19 = .error .reservedOpcode ∧
    ∃ t, exec (.news 0 0) (afterCycle (withAccess true 0x03 0 (counting 0x15 1))) = .next t ∧
      (t.cmdCnt == 0 && t.fault == 3) = true :=
  ⟨by decide, by decide +kernel, by decide, onNext_exists (by decide +kernel), by decide +kernel,
    by decide +kernel, onNext_exists (by decide +kernel)⟩

/-- The last cycle of `cmd` with these pins, from a count of completions at its largest value. -/
def counted (cmd : Word) (p : List PortCycle) : State := { counting cmd 1 with port := p, cmdCnt := 0xFFFFFFFF }

/-- A completion without a fault, at the wrap; a reset and a soft reset in such a cycle; and a completion with a fault. -/
theorem witness_CompletionsCounted :
    (∀ cmd p, (counted cmd p).Inv) ∧
    ((counted 0x16 []).inflight = some ⟨0x16, 1⟩ ∧ decode 0x16 = .ok .shl ∧
      (∃ u, exec .shl (afterCycle (counted 0x16 [])) = .next u ∧ (u.fault == 0) = true) ∧
      ∃ t, step (counted 0x16 []) = .next t ∧ (t.cmdCnt == 0xFFFFFFFF + 1) = true) ∧
    (∃ t, step (counted 0x16 [⟨false, false, false, false, 0, 0⟩]) = .next t ∧ (t.cmdCnt == 0) = true) ∧
    (∃ t, step (counted 0x16 [accessCycle true 0x01 2]) = .next t ∧ (t.cmdCnt == 0 && !t.fie) = true) ∧
    decode 0x15 = .ok (.news 0 0) ∧
    (∃ u, exec (.news 0 0) (afterCycle (counted 0x15 [])) = .next u ∧ (u.fault == 3) = true) ∧
    ∃ t, step (counted 0x15 []) = .next t ∧ (t.cmdCnt == 0xFFFFFFFF) = true :=
  ⟨fun cmd p => counting_inv cmd p _,
    ⟨rfl, by decide +kernel, onNext_exists (by decide +kernel), onNext_exists (by decide +kernel)⟩,
    onNext_exists (by decide +kernel), onNext_exists (by decide +kernel), by decide +kernel,
    onNext_exists (by decide +kernel), onNext_exists (by decide +kernel)⟩

theorem witness_InterruptFollowsEnable : faulty.fault ≠ 0 ∧ State.reset.fault = 0 := by decide
theorem witness_InstancesShareNothing : (⟨State.reset, [faulty]⟩ : System).instances[1]? = some faulty ∧
    (System.reset 2).numbered = true ∧ (System.reset 2).instances.length = 3 := by decide +kernel

/-- Each kind of index, at the ends of its ranges, in the idle and in the faulted state. -/
theorem witness_WritesWithNothingInFlight :
    (State.reset.inflight = none ∧ State.reset.fault = 0) ∧ (faulty.inflight = none ∧ faulty.fault ≠ 0) ∧
    ([0x00, 0x01, 0x02, 0x03, 0x04, 0x07, 0x08, 0x0F, 0x10, 0xFF] : List Byte).all (fun idx =>
      (withAccess true idx 2 State.reset).nextPins.writes idx 2 && (withAccess true idx 1 faulty).nextPins.writes idx 1) = true ∧
    (0x08 : Byte).toNat = 8 + (0 : Fin 8).val ∧ (0x0F : Byte).toNat = 8 + (7 : Fin 8).val ∧
    (1 : Word).getLsbD 1 = false ∧ (2 : Word).getLsbD 1 = true := by decide +kernel

end Sys2Proof.Tests
end

section
/-! PROOF. A step always answers a next state: a command, a completion, the engine's edge and the cycle in turn
(00_scope.md R8; 60_exceptions.md R270). -/

namespace Sys2Proof.Machine

/-- A command's rule is a function to results or a raised fault, and either ends in a next state (00_scope.md R8). -/
theorem exec_total (i : Instr) (s : State) : ∃ t, exec i s = .next t := by
  cases h : commandRule i s.x with
  | ok x => exact ⟨_, exec_of_ok h⟩
  | error f => exact ⟨_, exec_of_error h⟩

theorem completeWord_total (cmd : Word) (s : State) : ∃ t, completeWord exec cmd s = .next t := by
  unfold completeWord
  cases decode cmd with
  | ok i => exact exec_total i s
  | error e => exact ⟨_, rfl⟩

theorem engineEdge_total (s : State) : ∃ t, engineEdge exec s = .next t := by
  match h : s.inflight with
  | none => exact ⟨_, engineEdge_idle h⟩
  | some ⟨cmd, n + 2⟩ => exact ⟨_, engineEdge_count h⟩
  | some ⟨cmd, 0⟩ | some ⟨cmd, 1⟩ => rw [engineEdge_complete h (by decide)]; exact completeWord_total cmd s

/-- Settles O8: a reset cycle resets, and out of reset the engine's edge answers a state for the access to act on. -/
theorem stepAlwaysAnswersNext : Obligations.StepAlwaysAnswersNext := by
  intro s
  cases hr : s.nextPins.rstN with
  | false => exact ⟨_, step_reset hr⟩
  | true =>
    obtain ⟨t, ht⟩ := engineEdge_total (beginCycle s)
    exact ⟨_, step_running hr ht⟩

end Sys2Proof.Machine
end

section
/-! PROOF. The roundings to an integer, clamp, and the chroma table cut with them (00_scope.md R11, R12, R19 to R21). -/

namespace Sys2Proof.Machine

/-! ## roundHA -/

theorem roundHA_nonneg {q : ℚ} (h : 0 ≤ q) : roundHA q = ⌊q + 1 / 2⌋ := if_pos h

/-- The formula of 00_scope.md R19. -/
theorem roundHA_eq_sign_mul_floor (q : ℚ) : roundHA q = (SignType.sign q : ℤ) * ⌊|q| + 1 / 2⌋ := by
  rcases lt_trichotomy q 0 with h | rfl | h
  · simp [roundHA, not_le.mpr h, sign_neg h, abs_of_neg h]
  · norm_num [roundHA]
  · simp [roundHA, h.le, sign_pos h, abs_of_pos h]

theorem roundHA_neg (q : ℚ) : roundHA (-q) = -roundHA q := by
  simp [roundHA_eq_sign_mul_floor, Left.sign_neg]

theorem roundHA_nearest_of_nonneg {q : ℚ} (h : 0 ≤ q) :
    |(roundHA q : ℚ) - q| ≤ 1 / 2 ∧ (|(roundHA q : ℚ) - q| = 1 / 2 → |q| < |(roundHA q : ℚ)|) := by
  have lo := Int.floor_le (q + 1 / 2)
  have hi := Int.lt_floor_add_one (q + 1 / 2)
  rw [roundHA_nonneg h]
  refine ⟨abs_le.mpr ⟨by linarith, by linarith⟩, fun tie => ?_⟩
  have up : (⌊q + 1 / 2⌋ : ℚ) = q + 1 / 2 := by
    rcases (abs_eq (by norm_num)).mp tie with e | e <;> linarith
  rw [up, abs_of_nonneg h, abs_of_nonneg (by linarith)]
  linarith

/-- Rounding is odd, so what holds from 0 on holds below it. -/
theorem roundHA_nearest (q : ℚ) :
    |(roundHA q : ℚ) - q| ≤ 1 / 2 ∧ (|(roundHA q : ℚ) - q| = 1 / 2 → |q| < |(roundHA q : ℚ)|) := by
  rcases le_total 0 q with h | h
  · exact roundHA_nearest_of_nonneg h
  · have := roundHA_nearest_of_nonneg (neg_nonneg.mpr h)
    rwa [roundHA_neg, Int.cast_neg, abs_neg, abs_neg, neg_sub_neg, abs_sub_comm] at this

/-- Settles O44: the formula by sign, and nearness from 0 on by the floor, below 0 by oddness. -/
theorem roundHAIsNearest : Obligations.RoundHAIsNearest := fun q =>
  ⟨roundHA_eq_sign_mul_floor q, (roundHA_nearest q).1, (roundHA_nearest q).2, roundHA_neg q⟩

/-! ## trunc and clamp -/

theorem trunc_nonneg {q : ℚ} (h : 0 ≤ q) : trunc q = ⌊q⌋ := if_pos h

theorem trunc_neg (q : ℚ) : trunc (-q) = -trunc q := by
  rcases lt_trichotomy q 0 with h | rfl | h
  · rw [trunc_nonneg (neg_nonneg.mpr h.le), trunc, if_neg (not_le.mpr h), neg_neg]
  · rfl
  · rw [trunc_nonneg h.le, trunc, if_neg (by linarith), neg_neg]

theorem trunc_toward_zero_of_nonneg {q : ℚ} (h : 0 ≤ q) :
    |(trunc q : ℚ)| ≤ |q| ∧ |q| - |(trunc q : ℚ)| < 1 ∧ 0 ≤ (trunc q : ℚ) * q := by
  have h0 : (0 : ℚ) ≤ ⌊q⌋ := by exact_mod_cast Int.floor_nonneg.mpr h
  rw [trunc_nonneg h, abs_of_nonneg h0, abs_of_nonneg h]
  exact ⟨Int.floor_le q, by linarith [Int.lt_floor_add_one q], mul_nonneg h0 h⟩

/-- Truncation is odd, so what holds from 0 on holds below it. -/
theorem trunc_toward_zero (q : ℚ) :
    |(trunc q : ℚ)| ≤ |q| ∧ |q| - |(trunc q : ℚ)| < 1 ∧ 0 ≤ (trunc q : ℚ) * q := by
  rcases le_total 0 q with h | h
  · exact trunc_toward_zero_of_nonneg h
  · have := trunc_toward_zero_of_nonneg (neg_nonneg.mpr h)
    rwa [trunc_neg, Int.cast_neg, abs_neg, abs_neg, neg_mul_neg] at this

/-- A value within the bounds is kept (00_scope.md R21). -/
theorem clamp_of_mem {α : Type} [LinearOrder α] {v lo hi : α} (h : lo ≤ v ∧ v ≤ hi) : clamp v lo hi = v := by
  simp [clamp, not_lt.mpr h.1, not_lt.mpr h.2]

theorem clamp_idempotent {α : Type} [LinearOrder α] (v lo hi : α) (h : lo ≤ hi) :
    clamp (clamp v lo hi) lo hi = clamp v lo hi := clamp_of_mem (clamp_mem v lo hi h)

/-- Settles O45: truncation is a floor from 0 on and odd; a clamped value lies within the bounds, which keep it. -/
theorem truncAndClamp : Obligations.TruncAndClamp :=
  ⟨trunc_toward_zero,
    fun v lo hi h => ⟨clamp_eq_max_min v lo hi h, clamp_idempotent v lo hi h⟩,
    fun v lo hi h => ⟨clamp_eq_max_min v lo hi h, clamp_idempotent v lo hi h⟩⟩

/-! ## The chroma table -/

theorem clamp_mono {α : Type} [LinearOrder α] {v w lo hi : α} (h : lo ≤ hi) (hv : v ≤ w) :
    clamp v lo hi ≤ clamp w lo hi := by
  rw [clamp_eq_max_min v lo hi h, clamp_eq_max_min w lo hi h]
  exact max_le_max le_rfl (min_le_min hv le_rfl)

theorem chromaIndex_mono {v w : ℚ} (h : v ≤ w) : chromaIndex v ≤ chromaIndex w :=
  Int.toNat_le_toNat (clamp_mono (by norm_num) (Int.floor_le_floor (Config.chromaCurve.monotone h)))

theorem chromaIndex_lt (v : ℚ) : chromaIndex v < 2 ^ 64 := by
  obtain ⟨lo, hi⟩ := clamp_mem ⌊Config.chromaCurve v⌋ 0 (2 ^ 64 - 1) (by norm_num)
  unfold chromaIndex
  omega

theorem expField_finitePattern (v : Config.FiniteF64) : expField (finitePattern v) = v.exponent.val := by
  have he := v.exponent.isLt
  unfold expField finitePattern
  rw [BitVec.extractLsb'_append_eq_of_le (by decide), BitVec.extractLsb'_append_eq_of_add_le (by decide)]
  simp
  omega

theorem isFinite_finitePattern (v : Config.FiniteF64) : isFinite (finitePattern v) = true := by
  rw [isFinite_iff, expField_finitePattern]
  exact Nat.le_of_lt_succ v.exponent.isLt

/-- Settles O46: the index is cut from a non-decreasing curve, and the patterns from finite values. -/
theorem chromaTableContract : Obligations.ChromaTableContract :=
  ⟨fun _ _ => chromaIndex_mono, chromaIndex_lt, fun i => isFinite_finitePattern (Config.chromaValue i)⟩

end Sys2Proof.Machine
end

section
/-! PROOF. `rnd64` gives the nearest binary64 value, and keeps a value that a pattern holds (00_scope.md R16, R18). -/

namespace Sys2Proof.Machine

/-! ## The nearest multiple of the spacing -/

/-- No integer is nearer than the rounded one, and another is as near only at a tie. -/
theorem roundHalfEven_nearest (x : ℚ) (j : ℤ) :
    |(roundHalfEven x : ℚ) - x| ≤ |(j : ℚ) - x| ∧
    (j ≠ roundHalfEven x → |(roundHalfEven x : ℚ) - x| = |(j : ℚ) - x| → roundHalfEven x % 2 = 0) := by
  obtain ⟨near, even⟩ := roundHalfEven_spec x
  have apart (hj : j ≠ roundHalfEven x) : 1 ≤ |(roundHalfEven x : ℚ) - x| + |(j : ℚ) - x| := by
    have hone : (1 : ℤ) ≤ |roundHalfEven x - j| := Int.one_le_abs (sub_ne_zero.mpr hj.symm)
    calc (1 : ℚ) ≤ |(roundHalfEven x : ℚ) - j| := by exact_mod_cast hone
      _ ≤ |(roundHalfEven x : ℚ) - x| + |(x : ℚ) - j| := abs_sub_le _ _ _
      _ = _ := by rw [abs_sub_comm x]
  refine ⟨?_, fun hj tie => even (by linarith [apart hj])⟩
  by_cases hj : j = roundHalfEven x
  · rw [hj]
  · linarith [apart hj]

/-- What a finite value looks like on the grid of spacing 2^u: one of its points, or below the binade that has this
spacing. -/
def OnGridOrBelow (u : ℤ) (y : ℚ) : Prop := (∃ j : ℤ, y = pow2 u * j) ∨ (-1074 < u ∧ y < pow2 (u + 52))

/-- Every pattern's value, with either sign, is such a value for every spacing of the format. -/
theorem onGridOrBelow_of_abs_eq {y : ℚ} {p : Word} (hy : |y| = |f64Value p|) {u : ℤ} (hu : -1074 ≤ u) :
    OnGridOrBelow u y := by
  rw [abs_f64Value_fields] at hy
  rcases fieldMagnitude_multiple (expField p) (fracField p) (fracField_lt p) hu with ⟨j, hj⟩ | ⟨hlt, hs⟩
  · rw [hj] at hy
    rcases eq_or_eq_neg_of_abs_eq hy with e | e
    · exact .inl ⟨j, by simpa using e⟩
    · exact .inl ⟨-j, by simpa using e⟩
  · exact .inr ⟨hlt, (le_abs_self y).trans_lt (hy ▸ hs)⟩

/-- A positive magnitude rounded to the multiple of its spacing (00_scope.md R18). -/
def roundedMagnitude (m : ℚ) : ℚ := pow2 (ulpExp m) * roundHalfEven (m / pow2 (ulpExp m))

/-- The distance from a grid point is the spacing times the distance of the integers. -/
theorem abs_grid_sub {u : ℤ} (j : ℤ) (m : ℚ) : |pow2 u * j - m| = pow2 u * |(j : ℚ) - m / pow2 u| := by
  have hu := pow2_pos u
  rw [← abs_of_pos hu, ← abs_mul, abs_of_pos hu, mul_sub, mul_div_cancel₀ _ hu.ne']

/-- The rounded magnitude is nearest among those values, with an even integer where another is as near. A value below the
binade is farther away than the binade's first grid point. -/
theorem roundedMagnitude_nearest {m y : ℚ} (h : 0 < m) (hy : OnGridOrBelow (ulpExp m) y) :
    |roundedMagnitude m - m| ≤ |y - m| ∧
    (y ≠ roundedMagnitude m → |roundedMagnitude m - m| = |y - m| → roundHalfEven (m / pow2 (ulpExp m)) % 2 = 0) := by
  have hu := pow2_pos (ulpExp m)
  have grid (j : ℤ) : |roundedMagnitude m - m| ≤ |pow2 (ulpExp m) * j - m| := by
    rw [roundedMagnitude, abs_grid_sub, abs_grid_sub]
    exact mul_le_mul_of_nonneg_left (roundHalfEven_nearest _ j).1 hu.le
  rcases hy with ⟨j, rfl⟩ | ⟨hlt, hs⟩
  · refine ⟨grid j, fun hne tie => (roundHalfEven_nearest _ j).2 (fun e => hne (e ▸ rfl)) ?_⟩
    rw [roundedMagnitude, abs_grid_sub, abs_grid_sub] at tie
    exact mul_left_cancel₀ hu.ne' tie
  · have first : pow2 (ulpExp m + 52) = pow2 (ulpExp m) * ((2 ^ 52 : ℤ) : ℚ) := by
      rw [pow2_add, pow2_eq_zpow 52]; norm_cast
    have hm : pow2 (ulpExp m + 52) ≤ m := by
      obtain ⟨-, -, lo⟩ := ulpExp_spec h
      have := (le_div_iff₀ hu).mp (lo hlt)
      rw [first]; push_cast; linarith
    have farther : |roundedMagnitude m - m| < |y - m| := by
      refine (grid (2 ^ 52)).trans_lt ?_
      rw [← first, abs_of_nonpos (by linarith), abs_of_neg (by linarith)]
      linarith
    exact ⟨farther.le, fun _ tie => absurd tie farther.ne⟩

/-! ## The rounded pattern -/

/-- The sign a nonzero value's pattern gets. -/
def signOf (q : ℚ) : ℚ := if q < 0 then -1 else 1

theorem abs_signOf (q : ℚ) : |signOf q| = 1 := by unfold signOf; split_ifs <;> simp

theorem signOf_mul_signOf (q : ℚ) : signOf q * signOf q = 1 := by unfold signOf; split_ifs <;> norm_num

theorem signOf_mul_abs (q : ℚ) : signOf q * |q| = q := by
  unfold signOf
  split_ifs with h
  · simp [abs_of_neg h]
  · simp [abs_of_nonneg (not_lt.mp h)]

/-- The distance of any value from q is the distance of the magnitudes, the value turned to q's side. -/
theorem abs_sub_eq_signOf (v q : ℚ) : |v - q| = |(signOf q * v - |q|)| := by
  have : v - q = signOf q * (signOf q * v - |q|) := by
    rw [mul_sub, signOf_mul_abs, ← mul_assoc, signOf_mul_signOf, one_mul]
  rw [this, abs_mul, abs_signOf, one_mul]

theorem f64Value_rnd64Bits_eq {q : ℚ} (h : q ≠ 0) (hl : |q| < rnd64Limit) :
    f64Value (rnd64Bits q) = signOf q * roundedMagnitude |q| := (rnd64Bits_value h hl).2

theorem signOf_mul_rnd64Bits {q : ℚ} (h : q ≠ 0) (hl : |q| < rnd64Limit) :
    signOf q * f64Value (rnd64Bits q) = roundedMagnitude |q| := by
  rw [f64Value_rnd64Bits_eq h hl, ← mul_assoc, signOf_mul_signOf, one_mul]

@[simp] theorem rnd64Bits_zero : rnd64Bits 0 = 0 := rfl

theorem rnd64Bits_of_magnitude_zero {q : ℚ} (h : rnd64Magnitude |q| = 0) : rnd64Bits q = 0 := by
  simp [rnd64Bits, h]

/-- An even rounded integer makes an even fraction field. -/
theorem rnd64Bits_even {q : ℚ} (h : q ≠ 0) (hl : |q| < rnd64Limit)
    (he : roundHalfEven (|q| / pow2 (ulpExp |q|)) % 2 = 0) : (rnd64Bits q).getLsbD 0 = false := by
  obtain ⟨hM, -, -⟩ := rnd64Magnitude_value (abs_pos.mpr h) hl
  by_cases hm : rnd64Magnitude |q| = 0
  · rw [rnd64Bits_of_magnitude_zero hm]; rfl
  · rw [rnd64Bits_eq h hm, BitVec.getLsbD_ofNat]
    have : rnd64Magnitude |q| % 2 = 0 := by omega
    by_cases hq : q < 0
    · simp only [hq, if_true]; simp; omega
    · simp only [hq, if_false]; simp; omega

/-- A rounded zero is the pattern +0 (92_eei_decisions.md D4): only a subnormal rounds to 0, and then to no fraction. -/
theorem rnd64Bits_eq_zero {q : ℚ} (hl : |q| < rnd64Limit) (h0 : f64Value (rnd64Bits q) = 0) : rnd64Bits q = 0 := by
  by_cases h : q = 0
  · rw [h, rnd64Bits_zero]
  · obtain ⟨hM, -, -⟩ := rnd64Magnitude_value (abs_pos.mpr h) hl
    obtain ⟨hu, -, -⟩ := ulpExp_spec (abs_pos.mpr h)
    obtain ⟨-, -, hnormal, -⟩ := rounded_spec (abs_pos.mpr h) hl
    have hk : roundHalfEven (|q| / pow2 (ulpExp |q|)) = 0 := by
      have := signOf_mul_rnd64Bits h hl
      rw [h0, mul_zero, roundedMagnitude, zero_eq_mul] at this
      exact_mod_cast this.resolve_left (pow2_pos _).ne'
    exact rnd64Bits_of_magnitude_zero (by omega)

theorem isFinite_rnd64Bits {q : ℚ} (hl : |q| < rnd64Limit) : isFinite (rnd64Bits q) = true := by
  by_cases h : q = 0
  · rw [h, rnd64Bits_zero]; decide
  · exact (rnd64Bits_value h hl).1

/-- No pattern's value is nearer than the rounded one. -/
theorem rnd64Bits_nearest {q : ℚ} (hl : |q| < rnd64Limit) (p : Word) :
    |f64Value (rnd64Bits q) - q| ≤ |f64Value p - q| ∧
    (f64Value p ≠ f64Value (rnd64Bits q) → |f64Value (rnd64Bits q) - q| = |f64Value p - q| →
      (rnd64Bits q).getLsbD 0 = false) := by
  by_cases h : q = 0
  · subst h
    have : f64Value 0 = 0 := by decide +kernel
    rw [rnd64Bits_zero, this]
    exact ⟨by simp, fun _ _ => rfl⟩
  · have hm := abs_pos.mpr h
    have hy : OnGridOrBelow (ulpExp |q|) (signOf q * f64Value p) :=
      onGridOrBelow_of_abs_eq (by rw [abs_mul, abs_signOf, one_mul]) (ulpExp_spec hm).1
    obtain ⟨near, even⟩ := roundedMagnitude_nearest hm hy
    rw [abs_sub_eq_signOf _ q, abs_sub_eq_signOf _ q, signOf_mul_rnd64Bits h hl]
    refine ⟨near, fun hne tie => rnd64Bits_even h hl (even (fun e => hne ?_) tie)⟩
    rw [← signOf_mul_rnd64Bits h hl] at e
    exact mul_left_cancel₀ (abs_pos.mp (by rw [abs_signOf]; norm_num)) e

/-- Settles O42: the rounded pattern is nearest, on the grid of q's spacing and below it, and rnd64 raises exactly at and
above the threshold. -/
theorem rnd64IsNearest : Obligations.Rnd64IsNearest := by
  intro q
  rw [← rnd64Limit_eq]
  exact ⟨fun hl => ⟨fun _ => rnd64_inRange hl, isFinite_rnd64Bits hl, fun p _ => (rnd64Bits_nearest hl p).1,
    fun p _ => (rnd64Bits_nearest hl p).2, rnd64Bits_eq_zero hl⟩, fun hl _ => rnd64_outOfRange hl⟩

/-! ## A value has one pattern, zero aside -/

/-- The values with a smaller exponent field lie below the binade of a greater one. -/
theorem fieldMagnitude_lt {e f e' : ℕ} (hf : f < 2 ^ 52) (he : e < e') : fieldMagnitude e f < pow2 (e' - 1023) := by
  have h52 : pow2 52 = 2 ^ 52 := by rw [pow2_eq_zpow]; norm_cast
  have hfq : (f : ℚ) < pow2 52 := by rw [h52]; exact_mod_cast hf
  unfold fieldMagnitude
  split_ifs with h
  · calc pow2 (-1074) * f < pow2 (-1074) * pow2 52 := mul_lt_mul_of_pos_left hfq (pow2_pos _)
      _ = pow2 (-1022) := by rw [← pow2_add]; norm_num
      _ ≤ pow2 (e' - 1023) := pow2_le (by omega)
  · calc pow2 (e - 1023) * (1 + f / pow2 52) < pow2 (e - 1023) * 2 := by
          refine mul_lt_mul_of_pos_left ?_ (pow2_pos _)
          linarith [(div_lt_one (pow2_pos 52)).mpr hfq]
      _ = pow2 (e - 1023 + 1) := by rw [pow2_add, pow2_eq_zpow 1, zpow_one]
      _ ≤ pow2 (e' - 1023) := pow2_le (by omega)

theorem le_fieldMagnitude {e : ℕ} (f : ℕ) (he : e ≠ 0) : pow2 (e - 1023) ≤ fieldMagnitude e f := by
  have := pow2_pos 52
  rw [fieldMagnitude, if_neg he]
  exact le_mul_of_one_le_right (pow2_pos _).le (by simp; positivity)

theorem fieldMagnitude_strictMono {e f e' f' : ℕ} (hf : f < 2 ^ 52) (he : e < e') :
    fieldMagnitude e f < fieldMagnitude e' f' :=
  (fieldMagnitude_lt hf he).trans_le (le_fieldMagnitude f' (by omega))

theorem fieldMagnitude_injective {e f e' f' : ℕ} (hf : f < 2 ^ 52) (hf' : f' < 2 ^ 52)
    (h : fieldMagnitude e f = fieldMagnitude e' f') : e = e' ∧ f = f' := by
  rcases lt_trichotomy e e' with he | rfl | he
  · exact absurd h (fieldMagnitude_strictMono hf he).ne
  · refine ⟨rfl, ?_⟩
    unfold fieldMagnitude at h
    split_ifs at h <;> simpa [(pow2_pos _).ne'] using h
  · exact absurd h (fieldMagnitude_strictMono hf' he).ne'

/-- Patterns of one magnitude have the same exponent and fraction. -/
theorem fields_eq_of_abs_eq {p r : Word} (h : |f64Value p| = |f64Value r|) :
    expField p = expField r ∧ fracField p = fracField r := by
  rw [abs_f64Value_fields, abs_f64Value_fields] at h
  exact fieldMagnitude_injective (fracField_lt p) (fracField_lt r) h

theorem msb_eq_neg {p : Word} (h : f64Value p ≠ 0) : p.msb = decide (f64Value p < 0) := by
  have hpos : 0 < fieldMagnitude (expField p) (fracField p) := by
    rw [← abs_f64Value_fields]; exact abs_pos.mpr h
  rw [f64Value_eq]
  cases p.msb <;> simp [hpos, hpos.le]

/-- A nonzero value has one pattern (00_scope.md R16). -/
theorem f64Value_injective {p r : Word} (h : f64Value p = f64Value r) (h0 : f64Value p ≠ 0) : p = r := by
  obtain ⟨he, hf⟩ := fields_eq_of_abs_eq (congrArg _ h)
  rw [pattern_eq p, pattern_eq r, he, hf, msb_eq_neg h0, msb_eq_neg (h ▸ h0), h]

/-- Zero's patterns are +0 and -0 (00_scope.md R16). -/
theorem eq_of_f64Value_zero {p : Word} (h : f64Value p = 0) : p = 0 ∨ p = 0x8000000000000000 := by
  have hz : f64Value 0 = 0 := by decide +kernel
  obtain ⟨he, hf⟩ := fields_eq_of_abs_eq (congrArg _ (h.trans hz.symm))
  rw [pattern_eq p, he, hf]
  cases p.msb
  · exact .inl rfl
  · exact .inr rfl

/-- A value that a pattern holds is at distance 0 from that pattern, so it rounds to itself. -/
theorem f64Value_rnd64Bits_f64Value {p : Word} (h : isFinite p = true) :
    f64Value (rnd64Bits (f64Value p)) = f64Value p := by
  have near := (rnd64Bits_nearest (abs_f64Value_lt_limit h) p).1
  rw [sub_self, abs_zero] at near
  exact sub_eq_zero.mp (abs_nonpos_iff.mp near)

/-- Settles O43: the rounded pattern has the value given, and a value other than 0 has one pattern; of the two patterns
of 0, -0 is shut out. -/
theorem rnd64KeepsRepresentable : Obligations.Rnd64KeepsRepresentable := by
  intro p hfin hne
  by_cases h0 : f64Value p = 0
  · rw [h0, rnd64Bits_zero, (eq_of_f64Value_zero h0).resolve_right hne]
  · have hv := f64Value_rnd64Bits_f64Value hfin
    exact f64Value_injective hv (by rwa [hv])

end Sys2Proof.Machine
end

section
/-! PROOF. The faults a command's rule can raise, by the parts the rules are made of: they are those that 60_exceptions.md
R272 to R276 list for the command. -/

namespace Sys2Proof.Machine

/-! ## Rules and the faults they raise -/

/-- Every fault the rule raises is in the list, as code and detail. -/
def RaisesOnly {α : Type} (l : List (Byte × Byte)) (m : Rule α) : Prop :=
  ∀ f, m = .error f → (f.kind.code, f.detail) ∈ l

variable {α β : Type} {l : List (Byte × Byte)}

theorem raisesOnly_ok (a : α) : RaisesOnly l (.ok a : Rule α) := fun _ h => nomatch h

theorem RaisesOnly.bind {m : Rule α} {g : α → Rule β} (hm : RaisesOnly l m)
    (hg : ∀ a, m = .ok a → RaisesOnly l (g a)) : RaisesOnly l (m >>= g) := by
  intro f h
  rcases rule_bind_eq_error h with h | ⟨a, ha, h⟩
  · exact hm f h
  · exact hg a ha f h

theorem RaisesOnly.intoX2 {m : Rule Word} (hm : RaisesOnly l m) (x : Regs) : RaisesOnly l (intoX2 x m) :=
  fun f h => hm f (intoX2_eq_error h)

theorem raisesOnly_require {b : Bool} {k : FaultKind} {d : Byte} (h : (k.code, d) ∈ l) :
    RaisesOnly l (require b k d) := by
  intro f hf
  obtain ⟨-, rfl⟩ := require_eq_error hf
  exact h

theorem raisesOnly_readF64 {x : Regs} {i : Fin 8} (h : (4, regDetail i) ∈ l) : RaisesOnly l (readF64 x i) := by
  intro f hf
  obtain ⟨-, rfl⟩ := readF64_eq_error hf
  exact h

theorem raisesOnly_rnd64 {i : Fin 8} {q : ℚ} (h : (6, regDetail i) ∈ l) : RaisesOnly l (rnd64 i q) := by
  intro f hf
  obtain ⟨-, rfl⟩ := rnd64_eq_error hf
  exact h

theorem raisesOnly_rnd64_inRange {i : Fin 8} {q : ℚ} (h : |q| < rnd64Limit) : RaisesOnly l (rnd64 i q) := by
  rw [rnd64_inRange h]
  exact raisesOnly_ok _

theorem raisesOnly_readQuad {x : Regs} (h : ∀ i : Fin 8, i ≤ 3 → (4, regDetail i) ∈ l) : RaisesOnly l (readQuad x) := by
  intro f hf
  obtain ⟨i, hi, rfl⟩ := readQuad_eq_error hf
  exact h i hi

theorem raisesOnly_writeQuad {x : Regs} {q : Quad} (h : ∀ i : Fin 8, i ≤ 3 → (6, regDetail i) ∈ l) :
    RaisesOnly l (writeQuad x q) := by
  intro f hf
  obtain ⟨i, hi, rfl⟩ := writeQuad_eq_error hf
  exact h i hi

theorem raisesOnly_writeQuad_inRange {x : Regs} {q : Quad} (h : q.inRange) : RaisesOnly l (writeQuad x q) := by
  rw [writeQuad_inRange h]
  exact raisesOnly_ok _

theorem raisesOnly_contract {w n : ℕ} (h80 : (2, 0x80) ∈ l) (h81 : (2, 0x81) ∈ l) : RaisesOnly l (contract w n) :=
  (raisesOnly_require h80).bind fun _ _ => raisesOnly_require h81

/-! ## Bit fields within a word -/

theorem getU_ok {word : Word} {w n : ℕ} (h : w + n ≤ 64) : getU word w n = .ok (tc64 (fieldValue word w n)) := by
  simp [getU, contract_ok h]

theorem getS_ok {word : Word} {w n : ℕ} (h : w + n ≤ 64) :
    getS word w n = .ok (tc64 (signField (fieldValue word w n) w)) := by
  simp [getS, contract_ok h]

theorem insU_ok {word : Word} {w n v : ℕ} (h : w + n ≤ 64) (hv : fitsU v w = true) :
    insU word w n v = .ok (replaceField word w n v) := by
  simp [insU, contract_ok h, hv]

theorem insS_ok {word : Word} {w n : ℕ} {v : ℤ} (h : w + n ≤ 64) (hv : fitsS v w = true) :
    insS word w n v = .ok (replaceField word w n (v % 2 ^ w).toNat) := by
  simp [insS, contract_ok h, hv]

/-! ## Each command that can raise a fault, and those whose parts cannot -/

/-- R142: the results are clamped to [-1, 1], so a zero denominator is the only fault. -/
theorem rgb2yppRule_raises (x : Regs) : RaisesOnly (mayRaise .rgb2ypp) (rgb2yppRule x) := by
  refine (raisesOnly_require (by decide)).bind fun _ _ => ?_
  refine (raisesOnly_rnd64_inRange ?_).bind fun _ _ => ?_
  · exact clamp_lt_limit (by norm_num) (by norm_num) (by norm_num)
  refine (raisesOnly_rnd64_inRange ?_).bind fun _ _ => ?_
  · exact clamp_lt_limit (by norm_num) (by norm_num) (by norm_num)
  refine (raisesOnly_rnd64_inRange ?_).bind fun _ _ => raisesOnly_ok _
  exact clamp_lt_limit (by norm_num) (by norm_num) (by norm_num)

theorem ypp2rgbRule_raises (x : Regs) : RaisesOnly (mayRaise .ypp2rgb) (ypp2rgbRule x) :=
  (raisesOnly_readF64 (by decide)).bind fun _ _ => (raisesOnly_readF64 (by decide)).bind fun _ _ =>
    (raisesOnly_readF64 (by decide)).bind fun _ _ => raisesOnly_ok _

/-- R162: the insertions come after the checks of all six fields, and cannot fail. -/
theorem packRule_raises (x : Regs) : RaisesOnly (mayRaise .pack) (packRule x) := by
  refine (raisesOnly_require (by decide)).bind fun _ h0 => ?_
  refine (raisesOnly_require (by decide)).bind fun _ h1 => ?_
  refine (raisesOnly_require (by decide)).bind fun _ h2 => ?_
  refine (raisesOnly_require (by decide)).bind fun _ h3 => ?_
  refine (raisesOnly_require (by decide)).bind fun _ h4 => ?_
  refine (raisesOnly_require (by decide)).bind fun _ h5 => ?_
  simp only [insU_ok, insS_ok, require_eq_ok h0, require_eq_ok h1, require_eq_ok h2, require_eq_ok h3, require_eq_ok h4,
    require_eq_ok h5, Nat.reduceAdd, Nat.reduceLeDiff, rule_bind_ok]
  exact raisesOnly_ok _

/-- R163: UNPACK's fields lie within the word. -/
theorem unpackRule_raises (x : Regs) : RaisesOnly (mayRaise .unpack) (unpackRule x) := by
  simp only [unpackRule, getU_ok, getS_ok, Nat.reduceAdd, Nat.reduceLeDiff, rule_bind_ok]
  exact raisesOnly_ok _

theorem getU_raises (word : Word) (w n : ℕ) : RaisesOnly (mayRaise (.getu w n)) (getU word w n) :=
  (raisesOnly_contract (by simp [mayRaise]) (by simp [mayRaise])).bind fun _ _ => raisesOnly_ok _

theorem getS_raises (word : Word) (w n : ℕ) : RaisesOnly (mayRaise (.gets w n)) (getS word w n) :=
  (raisesOnly_contract (by simp [mayRaise]) (by simp [mayRaise])).bind fun _ _ => raisesOnly_ok _

theorem insU_raises (word : Word) (w n v : ℕ) : RaisesOnly (mayRaise (.newu w n)) (insU word w n v) :=
  (raisesOnly_contract (by simp [mayRaise]) (by simp [mayRaise])).bind fun _ _ =>
    (raisesOnly_require (by simp [mayRaise, FaultKind.code])).bind fun _ _ => raisesOnly_ok _

theorem insS_raises (word : Word) (w n : ℕ) (v : ℤ) : RaisesOnly (mayRaise (.news w n)) (insS word w n v) :=
  (raisesOnly_contract (by simp [mayRaise]) (by simp [mayRaise])).bind fun _ _ =>
    (raisesOnly_require (by simp [mayRaise, FaultKind.code])).bind fun _ _ => raisesOnly_ok _

/-- R212: FPRANGE cannot occur. -/
theorem dctRule_raises (x : Regs) : RaisesOnly (mayRaise .dct) (dctRule x) :=
  (raisesOnly_readQuad (by decide)).bind fun _ hy =>
    raisesOnly_writeQuad_inRange (dctForward_inRange (readQuad_eq_ok hy).2)

theorem idctRule_raises (x : Regs) : RaisesOnly (mayRaise .idct) (idctRule x) :=
  (raisesOnly_readQuad (by decide)).bind fun _ _ => raisesOnly_writeQuad (by decide)

/-- R214: the average of finite values is in range. -/
theorem avg4Rule_raises (x : Regs) : RaisesOnly (mayRaise .avg4) (avg4Rule x) := by
  refine (raisesOnly_readQuad (by decide)).bind fun v hv => ?_
  obtain ⟨-, h1, h2, h3, h4⟩ := readQuad_eq_ok hv
  exact (raisesOnly_rnd64_inRange (abs_quarter_lt h1 h2 h3 h4)).bind fun _ _ => raisesOnly_ok _

theorem quantRule_raises (x : Regs) : RaisesOnly (mayRaise .quant) (quantRule x) :=
  (raisesOnly_readQuad (by decide)).bind fun _ _ => (raisesOnly_readF64 (by decide)).bind fun _ _ =>
    (raisesOnly_readF64 (by decide)).bind fun _ _ => (raisesOnly_require (by decide)).bind fun _ _ => raisesOnly_ok _

/-- R217: FPRANGE cannot occur. -/
theorem dequantRule_raises (x : Regs) : RaisesOnly (mayRaise .dequant) (dequantRule x) :=
  (raisesOnly_require (by decide)).bind fun _ _ => (raisesOnly_require (by decide)).bind fun _ _ =>
    (raisesOnly_writeQuad_inRange (dequant_inRange x)).bind fun _ _ => raisesOnly_ok _

theorem sqrndRule_raises (x : Regs) : RaisesOnly (mayRaise .sqrnd) (sqrndRule x) :=
  (raisesOnly_readF64 (by decide)).bind fun _ _ => (raisesOnly_readF64 (by decide)).bind fun _ _ =>
    (raisesOnly_require (by decide)).bind fun _ _ => raisesOnly_ok _

theorem sqclampRule_raises (w : ℕ) (x : Regs) : RaisesOnly (mayRaise (.sqclamp w)) (sqclampRule w x) :=
  (raisesOnly_require (by simp [mayRaise, FaultKind.code])).bind fun _ _ =>
    (raisesOnly_readF64 (by simp [mayRaise, regDetail])).bind fun _ _ =>
      (raisesOnly_readF64 (by simp [mayRaise, regDetail])).bind fun _ _ => raisesOnly_ok _

theorem sdqRule_raises (x : Regs) : RaisesOnly (mayRaise .sdq) (sdqRule x) :=
  (raisesOnly_readF64 (by decide)).bind fun _ _ => (raisesOnly_require (by decide)).bind fun _ _ =>
    raisesOnly_rnd64 (by decide)

theorem sattruncRule_raises (x : Regs) : RaisesOnly (mayRaise .sattrunc) (sattruncRule x) :=
  (raisesOnly_readF64 (by decide)).bind fun _ _ => raisesOnly_ok _

/-- A command raises only the faults listed for it (60_exceptions.md R272 to R276, R278). -/
theorem commandRule_raises (i : Instr) (x : Regs) : RaisesOnly (mayRaise i) (commandRule i x) := by
  cases i with
  | nop | fitsu | fitss | shl | shr | sar => exact raisesOnly_ok _
  | rgb2ypp => exact rgb2yppRule_raises x
  | ypp2rgb => exact ypp2rgbRule_raises x
  | pack => exact packRule_raises x
  | unpack => exact unpackRule_raises x
  | getu w n => exact (getU_raises _ w n).intoX2 x
  | gets w n => exact (getS_raises _ w n).intoX2 x
  | newu w n => exact (insU_raises _ w n _).intoX2 x
  | news w n => exact (insS_raises _ w n _).intoX2 x
  | dct => exact dctRule_raises x
  | idct => exact idctRule_raises x
  | avg4 => exact avg4Rule_raises x
  | quant => exact quantRule_raises x
  | dequant => exact dequantRule_raises x
  | sqrnd => exact (sqrndRule_raises x).intoX2 x
  | sqclamp w => exact (sqclampRule_raises w x).intoX2 x
  | sdq => exact (sdqRule_raises x).intoX2 x
  | sattrunc => exact (sattruncRule_raises x).intoX2 x

/-- Every fault listed for a command is one of the codes and details of R278. -/
theorem legalFault_of_mem_mayRaise {i : Instr} {p : Byte × Byte} (h : p ∈ mayRaise i) : legalFault p.1 p.2 = true := by
  have all : ∀ q ∈ mayRaise i, legalFault q.1 q.2 = true := by
    cases i <;> simp [mayRaise, legalFault]
  exact all p h

end Sys2Proof.Machine
end

section
/-! PROOF. What a cycle can do, said once: a step, the engine's edge and a write by cases, for what every cycle keeps of
the registers (10_state.md R53 to R58; 60_exceptions.md R288). -/

namespace Sys2Proof.Machine

/-! ## The completion of a word, the engine's edge and the step -/

/-- What a command word answers at its completion: its command's rule, or ILLEGAL where it names none (30_encoding.md
R116). -/
def wordRule (cmd : Word) (x : Regs) : Rule Regs :=
  match decode cmd with
  | .ok i => commandRule i x
  | .error e => .error ⟨.illegal, e.detail⟩

theorem wordRule_of_decode {cmd : Word} {i : Instr} (h : decode cmd = .ok i) (x : Regs) :
    wordRule cmd x = commandRule i x := by
  simp [wordRule, h]

/-- Only a word that names a command answers results. -/
theorem wordRule_eq_ok {cmd : Word} {x y : Regs} (h : wordRule cmd x = .ok y) :
    ∃ i, decode cmd = .ok i ∧ commandRule i x = .ok y := by
  unfold wordRule at h
  cases hd : decode cmd with
  | ok i => exact ⟨i, rfl, by rwa [hd] at h⟩
  | error e => rw [hd] at h; cases h

/-- Every fault of a completion has a code and a detail of 60_exceptions.md R278. -/
theorem wordRule_legal {cmd : Word} {x : Regs} {f : Raise} (h : wordRule cmd x = .error f) :
    legalFault f.kind.code f.detail = true := by
  unfold wordRule at h
  cases hd : decode cmd with
  | ok i => rw [hd] at h; exact legalFault_of_mem_mayRaise (commandRule_raises i x f h)
  | error e => rw [hd] at h; cases h; cases e <;> decide

theorem completeWord_eq_finish (cmd : Word) (s : State) : completeWord exec cmd s = finish (wordRule cmd s.x) s := by
  unfold completeWord wordRule
  cases decode cmd with
  | ok i => exact exec_eq_finish i s
  | error e => rfl

/-- The engine at an edge is idle, counts down, completes a word, or latches the fault of its completion (45_control.md
R261 to R263). -/
theorem engineEdge_cases {s t : State} (h : engineEdge exec s = .next t) :
    (s.inflight = none ∧ t = s) ∨
    (∃ cmd n, s.inflight = some ⟨cmd, n + 2⟩ ∧ t = { s with inflight := some ⟨cmd, n + 1⟩ }) ∨
    (∃ cmd n x, s.inflight = some ⟨cmd, n⟩ ∧ n ≤ 1 ∧ wordRule cmd s.x = .ok x ∧ t = complete x s) ∨
    (∃ cmd n f, s.inflight = some ⟨cmd, n⟩ ∧ n ≤ 1 ∧ wordRule cmd s.x = .error f ∧ t = latchFault f.kind f.detail s) := by
  match hi : s.inflight with
  | none =>
    rw [engineEdge_idle hi] at h
    cases h
    exact .inl ⟨rfl, rfl⟩
  | some ⟨cmd, n + 2⟩ =>
    rw [engineEdge_count hi] at h
    cases h
    exact .inr (.inl ⟨cmd, n, rfl, rfl⟩)
  | some ⟨cmd, 0⟩ | some ⟨cmd, 1⟩ =>
    rw [engineEdge_complete hi (by decide), completeWord_eq_finish] at h
    rcases finish_cases h with ⟨x, hx, ht⟩ | ⟨f, hf, ht⟩
    · exact .inr (.inr (.inl ⟨cmd, _, x, rfl, by decide, hx, ht⟩))
    · exact .inr (.inr (.inr ⟨cmd, _, f, rfl, by decide, hf, ht⟩))

/-- A step is a reset of the registers, or the engine's edge and then the access (60_exceptions.md R288). -/
theorem step_cases {s t : State} (h : step s = .next t) :
    (s.nextPins.rstN = false ∧ t = resetRegisters (beginCycle s)) ∨
    (s.nextPins.rstN = true ∧ ∃ u, engineEdge exec (beginCycle s) = .next u ∧ t = portAccess s.nextPins u) := by
  cases hr : s.nextPins.rstN with
  | false =>
    rw [step_reset hr] at h
    cases h
    exact .inl ⟨rfl, rfl⟩
  | true =>
    obtain ⟨u, hu⟩ := engineEdge_total (beginCycle s)
    rw [step_running hr hu] at h
    cases h
    exact .inr ⟨rfl, u, hu, rfl⟩

/-! ## Writes -/

/-- The data registers stand at 0x08..0x0F (20_memory.md R80). -/
theorem dataIndex_eq_none {idx : Byte} (h : idx.toNat / 8 ≠ 1) : dataIndex idx = none := if_neg h

theorem dataIndex_range {idx : Byte} {i : Fin 8} (h : dataIndex idx = some i) : 8 ≤ idx.toNat ∧ idx.toNat ≤ 15 := by
  have : idx.toNat / 8 = 1 := by
    by_contra hn
    rw [dataIndex_eq_none hn] at h
    cases h
  omega

@[simp] theorem regWrite_ctrl (v : Word) (s : State) : regWrite 0x01 v s = ctrlWrite v s := rfl

/-- A write to an index that is neither CTRL nor CMD nor a data register is ignored (10_state.md R57; 20_memory.md R82). -/
theorem regWrite_ignored {idx : Byte} (v : Word) (s : State) (hd : dataIndex idx = none) (h1 : idx ≠ 0x01)
    (h3 : idx ≠ 0x03) : regWrite idx v s = s := by
  rw [regWrite, hd]
  simp only [if_neg h1, if_neg h3]

theorem ctrlWrite_fie {v : Word} (s : State) (h : v.getLsbD 1 = false) : ctrlWrite v s = { s with fie := v.getLsbD 0 } := by
  simp only [ctrlWrite, h, Bool.false_eq_true, if_false]

/-- A soft reset undoes the write of FIE as well (10_state.md R52). -/
theorem ctrlWrite_softReset {v : Word} (s : State) (h : v.getLsbD 1 = true) : ctrlWrite v s = resetRegisters s := by
  simp only [ctrlWrite, h, if_true]
  rfl

/-- A write to a data register aborts a command in flight, or is performed (20_memory.md R82). -/
theorem dataWrite_cases (idx : Byte) (i : Fin 8) (v : Word) (s : State) :
    dataWrite idx i v s = latchFault .busy idx s ∨ dataWrite idx i v s = { s with x := s.x.set i v } := by
  unfold dataWrite
  split
  · exact .inl rfl
  · exact .inr rfl

/-- A write to CMD is ignored, aborts a command in flight, or is accepted with no fault held (45_control.md R260). -/
theorem commandWrite_cases (v : Word) (s : State) :
    commandWrite v s = s ∨ commandWrite v s = latchFault .busy 0x03 s ∨
    (s.fault = 0 ∧
      commandWrite v s = { s with inflight := some ⟨v, Config.lat s.instNo (opcField v)⟩, cmdLast := lowHalf v }) := by
  unfold commandWrite
  split_ifs with hf hb
  · exact .inl rfl
  · exact .inr (.inl rfl)
  · exact .inr (.inr ⟨by simpa [State.faulted] using hf, rfl⟩)

/-- An access is a write, a read, or none. -/
theorem portAccess_cases (c : PortCycle) (s : State) :
    (c.performs = true ∧ c.hWe = true ∧ portAccess c s = regWrite c.hIdx c.hWdata s) ∨
    (c.performs = true ∧ c.hWe = false ∧ portAccess c s = { s with hRdata := some (regRead c.hIdx s) }) ∨
    (c.performs = false ∧ portAccess c s = s) := by
  cases hp : c.performs with
  | false => exact .inr (.inr ⟨rfl, portAccess_none s hp⟩)
  | true =>
    cases hw : c.hWe with
    | true => exact .inl ⟨rfl, rfl, portAccess_write s hp hw⟩
    | false => exact .inr (.inl ⟨rfl, rfl, portAccess_read s hp hw⟩)

end Sys2Proof.Machine
end

section
/-! PROOF. The invariant of the status, fault and in-flight registers: each operation of a cycle keeps it, so a step does
(10_state.md R53, R55, R58; 60_exceptions.md R278, R280, R284; 45_control.md R260, R261). -/

namespace Sys2Proof.Machine

/-! ## The operations -/

/-- The invariant speaks of INFLIGHT, FAULT, FINFO, CMDLAST and instNo alone. -/
theorem State.Inv.congr {s t : State} (h : s.Inv) (hi : t.inflight = s.inflight) (hf : t.fault = s.fault)
    (hn : t.finfo = s.finfo) (hl : t.cmdLast = s.cmdLast) (hno : t.instNo = s.instNo) : t.Inv where
  busyNotFaulted := by rw [hi, hf]; exact h.busyNotFaulted
  inflightLow := by rw [hi, hl]; exact h.inflightLow
  cyclesLeft := by rw [hi, hno]; exact h.cyclesLeft
  faultLegal := by rw [hf, hn]; exact h.faultLegal
  finfoClear := by rw [hf, hn]; exact h.finfoClear
  finfoWord := by rw [hf, hn, hl]; exact h.finfoWord

theorem resetRegisters_inv (s : State) : (resetRegisters s).Inv where
  busyNotFaulted _ := rfl
  inflightLow _ h := nomatch h
  cyclesLeft _ h := nomatch h
  faultLegal := rfl
  finfoClear _ := rfl
  finfoWord h := absurd rfl h

theorem complete_inv {s : State} (h : s.Inv) (r : Regs) : (complete r s).Inv where
  busyNotFaulted hn := absurd rfl hn
  inflightLow _ hf := nomatch hf
  cyclesLeft _ hf := nomatch hf
  faultLegal := h.faultLegal
  finfoClear := h.finfoClear
  finfoWord := h.finfoWord

/-- The half a fault records is CMDLAST, with a command in flight too (10_state.md R58). -/
theorem State.Inv.commandHalf_eq {s : State} (h : s.Inv) : s.commandHalf = s.cmdLast := by
  cases hi : s.inflight with
  | none => exact commandHalf_idle s hi
  | some f => rw [commandHalf_inflight s f hi, h.inflightLow f hi]

/-- A latched fault leaves nothing in flight, and its command half is CMDLAST (60_exceptions.md R280). -/
theorem latchFault_inv {s : State} (h : s.Inv) {k : FaultKind} {d : Byte} (hl : legalFault k.code d = true) :
    (latchFault k d s).Inv where
  busyNotFaulted hn := absurd rfl hn
  inflightLow _ hf := nomatch hf
  cyclesLeft _ hf := nomatch hf
  faultLegal := hl
  finfoClear h0 := absurd h0 (code_ne_zero k)
  finfoWord _ := h.commandHalf_eq

/-- Counting down keeps the word, and at least one cycle left. -/
theorem countDown_inv {s : State} (h : s.Inv) {cmd : Word} {n : ℕ} (hi : s.inflight = some ⟨cmd, n + 2⟩) :
    ({ s with inflight := some ⟨cmd, n + 1⟩ } : State).Inv where
  busyNotFaulted _ := h.busyNotFaulted (by simp [hi])
  inflightLow := by
    rintro _ ⟨⟩
    exact h.inflightLow ⟨cmd, n + 2⟩ hi
  cyclesLeft := by
    rintro _ ⟨⟩
    obtain ⟨-, hle⟩ := h.cyclesLeft ⟨cmd, n + 2⟩ hi
    exact ⟨Nat.succ_pos n, (Nat.le_succ _).trans hle⟩
  faultLegal := h.faultLegal
  finfoClear := h.finfoClear
  finfoWord := h.finfoWord

/-- An accepted word has all its cycles left, at least one, and no fault is held (45_control.md R260, R261). -/
theorem accept_inv {s : State} (h : s.Inv) (h0 : s.fault = 0) (v : Word) :
    ({ s with inflight := some ⟨v, Config.lat s.instNo (opcField v)⟩, cmdLast := lowHalf v } : State).Inv where
  busyNotFaulted _ := h0
  inflightLow := by rintro _ ⟨⟩; rfl
  cyclesLeft := by
    rintro _ ⟨⟩
    exact ⟨Nat.succ_pos _, le_rfl⟩
  faultLegal := h.faultLegal
  finfoClear := h.finfoClear
  finfoWord hn := absurd h0 hn

/-! ## The access -/

/-- The details of BUSY are the indices of CMD and the data registers (60_exceptions.md R277). -/
theorem legalFault_busy {idx : Byte} {i : Fin 8} (h : dataIndex idx = some i) :
    legalFault FaultKind.busy.code idx = true := by
  obtain ⟨lo, hi⟩ := dataIndex_range h
  simp [legalFault, FaultKind.code, lo, hi]

theorem dataWrite_inv {s : State} (h : s.Inv) {idx : Byte} {i : Fin 8} (hd : dataIndex idx = some i) (v : Word) :
    (dataWrite idx i v s).Inv := by
  rcases dataWrite_cases idx i v s with e | e <;> rw [e]
  · exact latchFault_inv h (legalFault_busy hd)
  · exact h.congr rfl rfl rfl rfl rfl

theorem ctrlWrite_inv {s : State} (h : s.Inv) (v : Word) : (ctrlWrite v s).Inv := by
  cases hv : v.getLsbD 1 with
  | true => rw [ctrlWrite_softReset s hv]; exact resetRegisters_inv s
  | false => rw [ctrlWrite_fie s hv]; exact h.congr rfl rfl rfl rfl rfl

theorem commandWrite_inv {s : State} (h : s.Inv) (v : Word) : (commandWrite v s).Inv := by
  rcases commandWrite_cases v s with e | e | ⟨h0, e⟩ <;> rw [e]
  · exact h
  · exact latchFault_inv h rfl
  · exact accept_inv h h0 v

theorem regWrite_inv {s : State} (h : s.Inv) (idx : Byte) (v : Word) : (regWrite idx v s).Inv := by
  rcases regWrite_cases idx v s with ⟨i, hd, e⟩ | ⟨-, -, e⟩ | ⟨-, -, e⟩ | ⟨-, -, -, e⟩ <;> rw [e]
  · exact dataWrite_inv h hd v
  · exact ctrlWrite_inv h v
  · exact commandWrite_inv h v
  · exact h

theorem portAccess_inv {s : State} (h : s.Inv) (c : PortCycle) : (portAccess c s).Inv := by
  rcases portAccess_cases c s with ⟨-, -, e⟩ | ⟨-, -, e⟩ | ⟨-, e⟩ <;> rw [e]
  · exact regWrite_inv h c.hIdx c.hWdata
  · exact h.congr rfl rfl rfl rfl rfl
  · exact h

/-! ## The cycle -/

theorem engineEdge_inv {s t : State} (h : s.Inv) (he : engineEdge exec s = .next t) : t.Inv := by
  rcases engineEdge_cases he with ⟨-, rfl⟩ | ⟨cmd, n, hi, rfl⟩ | ⟨cmd, n, x, -, -, -, rfl⟩ | ⟨cmd, n, f, -, -, hf, rfl⟩
  · exact h
  · exact countDown_inv h hi
  · exact complete_inv h x
  · exact latchFault_inv h (wordRule_legal hf)

/-- Settles O12: a reset meets the invariant, and out of reset the engine's edge keeps it and then the access does. -/
theorem stepKeepsInvariant : Obligations.StepKeepsInvariant := by
  intro s t h hs
  have begun : (beginCycle s).Inv := h.congr rfl rfl rfl rfl rfl
  rcases step_cases hs with ⟨-, rfl⟩ | ⟨-, u, hu, rfl⟩
  · exact resetRegisters_inv _
  · exact portAccess_inv (engineEdge_inv begun hu) _

end Sys2Proof.Machine
end

section
/-! PROOF. The control and status registers through the port, and the hardware reset (10_state.md R42, R51 to R53, R57). -/

namespace Sys2Proof.Machine

@[simp] theorem regRead_ctrl (s : State) : regRead 0x01 s = s.ctrlWord := rfl
@[simp] theorem regRead_status (s : State) : regRead 0x02 s = s.statusWord := rfl
@[simp] theorem regRead_cmdCnt (s : State) : regRead 0x05 s = s.cmdCnt.setWidth 64 := rfl

/-! ## STATUS -/

theorem getLsbD_boolWord (b : Bool) (k : ℕ) : (boolWord b).getLsbD k = (decide (k = 0) && b) := by
  cases b <;> simp [boolWord, BitVec.getLsbD_one]

/-- Settles O51: the three fields of STATUS do not overlap, and a byte has no bit from 8 on. -/
theorem statusWordBits : Obligations.StatusWordBits := by
  intro s k
  rw [regRead_status, State.statusWord]
  simp only [BitVec.getLsbD_or, BitVec.getLsbD_shiftLeft, BitVec.getLsbD_setWidth, getLsbD_boolWord]
  split_ifs with h0 h1 h8
  · simp [h0, State.busy]
  · simp [h1, State.irq, State.faulted]
  · have : k - 1 ≠ 0 := by omega
    simp [h0, this, show k < 64 by omega, show 8 ≤ k by omega, show k - 8 < 64 by omega]
  · have hk : k < 8 ∨ s.fault.getLsbD (k - 8) = false := by
      by_cases hlt : k < 8
      · exact .inl hlt
      · exact .inr (BitVec.getLsbD_of_ge s.fault (k - 8) (by omega))
    have : k - 1 ≠ 0 := by omega
    rcases hk with hk | hk <;> simp [h0, this, hk]

/-! ## Reserved and read-only indices -/

/-- A reserved index is no data register and none of 0x00..0x05 (10_state.md R57). -/
theorem reserved_ne {idx : Byte} (h : idx = 0x06 ∨ idx = 0x07 ∨ 0x10 ≤ idx.toNat) :
    dataIndex idx = none ∧ ∀ k : Byte, k.toNat ≤ 5 → idx ≠ k := by
  have hn : idx.toNat = 6 ∨ idx.toNat = 7 ∨ 16 ≤ idx.toNat := by
    rcases h with rfl | rfl | h
    · exact .inl rfl
    · exact .inr (.inl rfl)
    · exact .inr (.inr h)
  refine ⟨dataIndex_eq_none (by omega), ?_⟩
  rintro k hk rfl
  omega

theorem regRead_reserved {idx : Byte} (s : State) (h : idx = 0x06 ∨ idx = 0x07 ∨ 0x10 ≤ idx.toNat) :
    regRead idx s = 0 := by
  obtain ⟨hd, hne⟩ := reserved_ne h
  rw [regRead, hd]
  simp only [if_neg (hne 0x00 (by decide)), if_neg (hne 0x01 (by decide)), if_neg (hne 0x02 (by decide)),
    if_neg (hne 0x03 (by decide)), if_neg (hne 0x04 (by decide)), if_neg (hne 0x05 (by decide))]

theorem regWrite_reserved {idx : Byte} (v : Word) (s : State) (h : idx = 0x06 ∨ idx = 0x07 ∨ 0x10 ≤ idx.toNat) :
    regWrite idx v s = s := by
  obtain ⟨hd, hne⟩ := reserved_ne h
  exact regWrite_ignored v s hd (hne 0x01 (by decide)) (hne 0x03 (by decide))

/-- ID, STATUS, FINFO and CMDCNT are read-only (10_state.md R50, R53, R55, R56). -/
theorem regWrite_readOnly {idx : Byte} (v : Word) (s : State) (h : idx = 0x00 ∨ idx = 0x02 ∨ idx = 0x04 ∨ idx = 0x05) :
    regWrite idx v s = s := by
  rcases h with rfl | rfl | rfl | rfl <;> rfl

/-- Settles O53: none of these indices is CTRL, CMD or a data register, and the reserved ones are no register. -/
theorem reservedIndices : Obligations.ReservedIndices := fun s _ v =>
  ⟨fun h => ⟨regRead_reserved s h, regWrite_reserved v s h⟩, regWrite_readOnly v s⟩

/-! ## Resets -/

/-- Settles O9: the cycle resets the registers and nothing else, and both pins are gated by rst_n. -/
theorem hardwareResetCycle : Obligations.HardwareResetCycle := by
  intro s hr
  refine ⟨step_reset hr, ?_, ?_⟩
  · rw [PortCycle.hReady, hr, Bool.false_and]
  · rw [State.irqPin, hr, Bool.false_and]

/-- Settles O52: bit 1 of the word written decides between a write of FIE and a reset of every register. -/
theorem ctrlWriteAndSoftReset : Obligations.CtrlWriteAndSoftReset :=
  ⟨fun _ => rfl, fun s _ => ⟨ctrlWrite_fie s, ctrlWrite_softReset s⟩⟩

end Sys2Proof.Machine
end

section
/-! PROOF. CMDCNT counts the completions without a fault (10_state.md R56): what the access and the engine's edge make of
it. -/

namespace Sys2Proof.Machine

/-! ## The access -/

/-- The access of the cycle is a write to CTRL with bit 1 set (10_state.md R52). -/
def PortCycle.SoftReset (c : PortCycle) : Prop :=
  c.performs = true ∧ c.hWe = true ∧ c.hIdx = 0x01 ∧ c.hWdata.getLsbD 1 = true

theorem portAccess_softReset {c : PortCycle} (s : State) (h : c.SoftReset) : portAccess c s = resetRegisters s := by
  obtain ⟨hp, hw, hi, hv⟩ := h
  rw [portAccess_write s hp hw, hi, regWrite_ctrl, ctrlWrite_softReset s hv]

/-- No write but a soft reset reaches CMDCNT. -/
theorem regWrite_cmdCnt {idx : Byte} {v : Word} (s : State) (h : ¬(idx = 0x01 ∧ v.getLsbD 1 = true)) :
    (regWrite idx v s).cmdCnt = s.cmdCnt := by
  rcases regWrite_cases idx v s with ⟨i, -, e⟩ | ⟨-, h1, e⟩ | ⟨-, -, e⟩ | ⟨-, -, -, e⟩ <;> rw [e]
  · rcases dataWrite_cases idx i v s with e | e <;> rw [e]
    rfl
  · rw [ctrlWrite_fie s (by simpa [h1] using h)]
  · rcases commandWrite_cases v s with e | e | ⟨-, e⟩ <;> rw [e]
    rfl

theorem portAccess_cmdCnt {c : PortCycle} (s : State) (h : ¬c.SoftReset) : (portAccess c s).cmdCnt = s.cmdCnt := by
  rcases portAccess_cases c s with ⟨hp, hw, e⟩ | ⟨-, -, e⟩ | ⟨-, e⟩ <;> rw [e]
  exact regWrite_cmdCnt s fun hv => h ⟨hp, hw, hv⟩

/-! ## The engine's edge -/

/-- A command in its last cycle whose execution leaves FAULT at 0. -/
def State.CompletesWithoutFault (s : State) : Prop :=
  ∃ cmd i u, s.inflight = some ⟨cmd, 1⟩ ∧ decode cmd = .ok i ∧ exec i s = .next u ∧ u.fault = 0

/-- Where the invariant holds, such a completion is one whose word answers results. -/
theorem completesWithoutFault_iff {s : State} (h : s.Inv) :
    s.CompletesWithoutFault ↔ ∃ cmd x, s.inflight = some ⟨cmd, 1⟩ ∧ wordRule cmd s.x = .ok x := by
  constructor
  · rintro ⟨cmd, i, u, hi, hd, hu, h0⟩
    rcases exec_cases hu with ⟨x, hx, -⟩ | ⟨f, -, rfl⟩
    · exact ⟨cmd, x, hi, (wordRule_of_decode hd s.x).trans hx⟩
    · exact absurd h0 (code_ne_zero f.kind)
  · rintro ⟨cmd, x, hi, hx⟩
    obtain ⟨i, hd, hr⟩ := wordRule_eq_ok hx
    exact ⟨cmd, i, complete x s, hi, hd, exec_of_ok hr, h.busyNotFaulted (by simp [hi])⟩

/-- The engine's edge raises CMDCNT at a completion without a fault, and leaves it else (45_control.md R262, R263). -/
theorem engineEdge_cmdCnt {s t : State} (h : s.Inv) (he : engineEdge exec s = .next t) :
    (s.CompletesWithoutFault → t.cmdCnt = s.cmdCnt + 1) ∧ (¬s.CompletesWithoutFault → t.cmdCnt = s.cmdCnt) := by
  rw [completesWithoutFault_iff h]
  rcases engineEdge_cases he with ⟨hi, rfl⟩ | ⟨cmd, n, hi, rfl⟩ | ⟨cmd, n, x, hi, hn, hx, rfl⟩ |
    ⟨cmd, n, f, hi, hn, hf, rfl⟩
  · exact ⟨by simp [hi], fun _ => rfl⟩
  · exact ⟨by simp [hi], fun _ => rfl⟩
  · obtain rfl : n = 1 := le_antisymm hn (h.cyclesLeft _ hi).1
    exact ⟨fun _ => rfl, fun hc => absurd ⟨cmd, x, hi, hx⟩ hc⟩
  · exact ⟨by simp [hi, hf], fun _ => rfl⟩

/-! ## The cycle -/

/-- Settles O56: a reset clears the count, and out of reset the access leaves what the engine's edge made of it. -/
theorem completionsCounted : Obligations.CompletionsCounted := by
  refine ⟨fun s t h hs => ?_, fun s v => ⟨rfl, rfl⟩⟩
  have begun : (beginCycle s).Inv := h.congr rfl rfl rfl rfl rfl
  show (s.nextPins.rstN = false ∨ s.nextPins.SoftReset → t.cmdCnt = 0) ∧
    (¬(s.nextPins.rstN = false ∨ s.nextPins.SoftReset) → (beginCycle s).CompletesWithoutFault →
      t.cmdCnt = s.cmdCnt + 1) ∧
    (¬(s.nextPins.rstN = false ∨ s.nextPins.SoftReset) → ¬(beginCycle s).CompletesWithoutFault → t.cmdCnt = s.cmdCnt)
  rcases step_cases hs with ⟨hr, rfl⟩ | ⟨hr, u, hu, rfl⟩
  · exact ⟨fun _ => rfl, fun hn => absurd (.inl hr) hn, fun hn => absurd (.inl hr) hn⟩
  · obtain ⟨counts, keeps⟩ := engineEdge_cmdCnt begun hu
    have access (hn : ¬(s.nextPins.rstN = false ∨ s.nextPins.SoftReset)) :
        (portAccess s.nextPins u).cmdCnt = u.cmdCnt := portAccess_cmdCnt u fun hsoft => hn (.inr hsoft)
    refine ⟨fun hreset => ?_, fun hn hc => (access hn).trans (counts hc), fun hn hc => (access hn).trans (keeps hc)⟩
    have hsoft : s.nextPins.SoftReset := hreset.resolve_left (by simp [hr])
    rw [portAccess_softReset u hsoft]
    rfl

end Sys2Proof.Machine
end

section
/-! PROOF. The access of a cycle as a read or a write of one index, after an edge that leaves nothing in flight or a
command counting: reads have no side effect, writes with nothing in flight, and the access of the completing cycle
(20_memory.md R81, R82, R91). -/

namespace Sys2Proof.Machine

/-! ## A cycle's read or write -/

theorem PortCycle.reads_iff {c : PortCycle} {idx : Byte} :
    c.reads idx = true ↔ c.performs = true ∧ c.hWe = false ∧ c.hIdx = idx := by
  simp [PortCycle.reads, and_assoc]

theorem PortCycle.writes_iff {c : PortCycle} {idx : Byte} {v : Word} :
    c.writes idx v = true ↔ c.performs = true ∧ c.hWe = true ∧ c.hIdx = idx ∧ c.hWdata = v := by
  simp [PortCycle.writes, and_assoc]

/-- No access is performed in reset (10_state.md R42). -/
theorem PortCycle.rstN_of_performs {c : PortCycle} (h : c.performs = true) : c.rstN = true := by
  simp only [PortCycle.performs, Bool.and_eq_true] at h
  exact h.1.1

/-- A cycle's read sees what the engine's edge leaves (20_memory.md R91). -/
theorem step_read {s t : State} {idx : Byte} (h : s.nextPins.reads idx = true)
    (he : engineEdge exec (beginCycle s) = .next t) : step s = .next { t with hRdata := some (regRead idx t) } := by
  obtain ⟨hp, hw, rfl⟩ := PortCycle.reads_iff.mp h
  rw [step_running (PortCycle.rstN_of_performs hp) he, portAccess_read t hp hw]

/-- A cycle's write acts on what the engine's edge leaves (20_memory.md R91). -/
theorem step_write {s t : State} {idx : Byte} {v : Word} (h : s.nextPins.writes idx v = true)
    (he : engineEdge exec (beginCycle s) = .next t) : step s = .next (regWrite idx v t) := by
  obtain ⟨hp, hw, rfl, rfl⟩ := PortCycle.writes_iff.mp h
  rw [step_running (PortCycle.rstN_of_performs hp) he, portAccess_write t hp hw]

/-! ## Reads -/

/-- The data registers stand at 0x08..0x0F in order (20_memory.md R80). -/
theorem dataIndex_of_toNat {idx : Byte} {k : Fin 8} (h : idx.toNat = 8 + k.val) : dataIndex idx = some k := by
  have hdiv : idx.toNat / 8 = 1 := by omega
  rw [dataIndex, if_pos hdiv]
  exact congrArg some (Fin.ext (by simp; omega))

theorem regRead_data {idx : Byte} {k : Fin 8} (s : State) (h : idx.toNat = 8 + k.val) : regRead idx s = s.x.get k := by
  rw [regRead, dataIndex_of_toNat h]

/-- DETAIL stands above CMDWORD (10_state.md R55). -/
theorem finfoWord_eq_append (s : State) : s.finfoWord = (s.finfo.detail ++ s.finfo.cmdWord).setWidth 64 := by
  refine BitVec.eq_of_getLsbD_eq fun k hk => ?_
  simp only [State.finfoWord, BitVec.getLsbD_or, BitVec.getLsbD_shiftLeft, BitVec.getLsbD_setWidth,
    BitVec.getLsbD_append]
  by_cases hlo : k < 32
  · simp [hk, hlo]
  · simp [hk, hlo, BitVec.getLsbD_of_ge s.finfo.cmdWord k (by omega)]
    omega

/-- A command before its last cycle, or none: the edge takes one from the count and does nothing else (45_control.md
R261). -/
theorem engineEdge_notCompleting {run : Executor} {s : State} (h : ∀ f, s.inflight = some f → 2 ≤ f.left) :
    engineEdge run s = .next { s with inflight := s.inflight.map fun f => ⟨f.cmd, f.left - 1⟩ } := by
  match hi : s.inflight with
  | none => rw [engineEdge_idle hi, Option.map_none, ← hi]
  | some ⟨cmd, n + 2⟩ => rw [engineEdge_count hi]; rfl
  | some ⟨cmd, 0⟩ | some ⟨cmd, 1⟩ => exact absurd (h _ hi) (by simp)

/-- Settles O49: the edge before the read changes the count alone, which no register shows. -/
theorem readsHaveNoSideEffect : Obligations.ReadsHaveNoSideEffect := by
  intro s idx hread hleft
  refine ⟨_, step_read hread (engineEdge_notCompleting hleft), ?_, ?_, ?_, ?_, ?_, ?_, fun i hi => regRead_data _ hi,
    regRead_reserved _⟩ <;> rintro rfl
  · rfl
  · rfl
  · rw [regRead_status]
    simp [State.statusWord, State.irq, State.faulted, State.busy]
  · rfl
  · exact finfoWord_eq_append s
  · rfl

/-! ## Writes with nothing in flight -/

theorem regWrite_data_idle {s : State} {idx : Byte} {k : Fin 8} (v : Word) (h : s.inflight = none)
    (hk : idx.toNat = 8 + k.val) : regWrite idx v s = { s with x := s.x.set k v } := by
  simp [regWrite, dataIndex_of_toNat hk, dataWrite, State.busy, h]

theorem regWrite_cmd_faulted {s : State} (v : Word) (h : s.fault ≠ 0) : regWrite 0x03 v s = s := by
  show commandWrite v s = s
  exact if_pos (bne_iff_ne.mpr h)

theorem regWrite_cmd_accepted {s : State} (v : Word) (hi : s.inflight = none) (hf : s.fault = 0) :
    regWrite 0x03 v s =
      { s with inflight := some ⟨v, Config.lat s.instNo (opcField v)⟩, cmdLast := lowHalf v } := by
  show commandWrite v s = _
  simp [commandWrite, State.faulted, State.busy, hi, hf]

theorem guardedIndex_eq_false_iff {idx : Byte} :
    guardedIndex idx = false ↔ idx ≠ 0x03 ∧ (8 ≤ idx.toNat → 15 < idx.toNat) := by
  simp [guardedIndex]

/-- No write elsewhere than to CTRL, CMD and the data registers has an effect (20_memory.md R82). -/
theorem regWrite_unguarded {idx : Byte} (v : Word) (s : State) (h1 : idx ≠ 0x01) (hg : guardedIndex idx = false) :
    regWrite idx v s = s := by
  obtain ⟨h3, hdata⟩ := guardedIndex_eq_false_iff.mp hg
  exact regWrite_ignored v s (dataIndex_eq_none (by omega)) h1 h3

/-- With no word on h_rdata, a reset leaves the reset state but for the pins and the number. -/
theorem resetRegisters_of_noRead {s : State} (h : s.hRdata = none) :
    resetRegisters s = { State.reset with port := s.port, instNo := s.instNo } := by
  rw [resetRegisters, h]
  rfl

/-- Settles O50: the edge leaves the state alone, and the write is one of an idle block. -/
theorem writesWithNothingInFlight : Obligations.WritesWithNothingInFlight := by
  intro s idx v hi hwrite
  have hidle : (beginCycle s).inflight = none := hi
  rw [step_write hwrite (engineEdge_idle hidle)]
  refine ⟨fun k hk => congrArg _ (regWrite_data_idle v hidle hk), ?_, ?_, fun hother => ?_, ?_, ?_⟩
  · rintro rfl h1
    exact congrArg _ (ctrlWrite_fie (beginCycle s) h1)
  · rintro rfl h1
    exact congrArg _ (ctrlWrite_softReset (beginCycle s) h1)
  · have h1 : idx ≠ 0x01 := by bv_omega
    have hg : guardedIndex idx = false := guardedIndex_eq_false_iff.mpr ⟨by bv_omega, by bv_omega⟩
    exact congrArg _ (regWrite_unguarded v (beginCycle s) h1 hg)
  · rintro rfl hf
    exact congrArg _ (regWrite_cmd_faulted (s := beginCycle s) v hf)
  · rintro rfl hf
    exact congrArg _ (regWrite_cmd_accepted v hidle hf)

/-! ## The access of the completing cycle -/

/-- A completion, with results or a fault, leaves nothing in flight and drives no h_rdata (45_control.md R262, R263). -/
theorem exec_clears {i : Instr} {s t : State} (h : exec i s = .next t) : t.inflight = none ∧ t.hRdata = s.hRdata := by
  rcases exec_cases h with ⟨x, -, rfl⟩ | ⟨f, -, rfl⟩ <;> exact ⟨rfl, rfl⟩

/-- In a command's last cycle the edge completes its word (45_control.md R261). -/
theorem engineEdge_lastCycle {s t : State} {cmd : Word} (hi : s.inflight = some ⟨cmd, 1⟩)
    (h : (∃ i, decode cmd = .ok i ∧ exec i s = .next t) ∨
      ∃ e, decode cmd = .error e ∧ t = faultedWith 1 e.detail s) :
    engineEdge exec s = .next t ∧ t.inflight = none ∧ t.hRdata = s.hRdata := by
  rw [engineEdge_complete hi le_rfl, completeWord]
  rcases h with ⟨i, hd, ht⟩ | ⟨e, hd, rfl⟩
  · rw [hd]
    exact ⟨ht, exec_clears ht⟩
  · rw [hd]
    exact ⟨rfl, rfl, rfl⟩

/-- Settles O55: the edge gives the completed state, with nothing in flight, and the access is one of an idle block. -/
theorem completionBeforeAccess : Obligations.CompletionBeforeAccess := by
  intro s t cmd hi _ hcompletes
  obtain ⟨he, hnone, hrdata⟩ := engineEdge_lastCycle (s := afterCycle s) hi hcompletes
  refine ⟨by rw [State.busy, hnone]; rfl, fun idx h => step_read h he, fun v h h0 => ?_, fun v h h0 => ?_,
    fun k v h => ?_, fun v h => ?_, fun idx v h h1 hg => ?_⟩ <;> rw [step_write h he]
  · exact congrArg _ (regWrite_cmd_accepted v hnone h0)
  · rw [regWrite_cmd_faulted v h0]
  · have hk : (BitVec.ofNat 8 (8 + k.val)).toNat = 8 + k.val := Nat.mod_eq_of_lt (by omega)
    rw [regWrite_data_idle v hnone hk]
  · rw [regWrite_ctrl]
    cases h1 : v.getLsbD 1 with
    | true => rw [ctrlWrite_softReset t h1, resetRegisters_of_noRead hrdata, if_pos rfl]
    | false => rw [ctrlWrite_fie t h1, if_neg Bool.false_ne_true]
  · rw [regWrite_unguarded v t h1 hg]

end Sys2Proof.Machine
end

section
/-! PROOF. A system steps each of its blocks by itself (20_memory.md R96; 60_exceptions.md R295). -/

namespace Sys2Proof.Machine

/-- One clock edge takes each block of a list to the one at its place. -/
def EachSteps : List State → List State → Prop := List.Forall₂ fun s t => step s = .next t

theorem stepInstances_total (l : List State) : ∃ ts, stepInstances l = .next ts ∧ EachSteps l ts := by
  induction l with
  | nil => exact ⟨[], rfl, .nil⟩
  | cons s rest ih =>
    obtain ⟨t, ht⟩ := stepAlwaysAnswersNext s
    obtain ⟨ts, hts, each⟩ := ih
    exact ⟨t :: ts, by rw [stepInstances, ht, hts], .cons ht each⟩

theorem System.step_total (y : System) : ∃ z : System, y.step = .next z ∧ EachSteps y.instances z.instances := by
  obtain ⟨t, ht⟩ := stepAlwaysAnswersNext y.first
  obtain ⟨ts, hts, each⟩ := stepInstances_total y.others
  exact ⟨⟨t, ts⟩, by rw [System.step, ht, hts], .cons ht each⟩

theorem EachSteps.map_instNo {l ts : List State} (h : EachSteps l ts) :
    ts.map State.instNo = l.map State.instNo := by
  induction h with
  | nil => rfl
  | cons hs _ ih => rw [List.map_cons, List.map_cons, step_instNo hs, ih]

theorem EachSteps.getElem? {l ts : List State} (h : EachSteps l ts) {n : ℕ} {s : State} (hn : l[n]? = some s) :
    ∃ t, ts[n]? = some t ∧ step s = .next t := by
  obtain ⟨hlt, rfl⟩ := List.getElem?_eq_some_iff.mp hn
  have hlt' : n < ts.length := h.length_eq ▸ hlt
  exact ⟨ts[n], List.getElem?_eq_getElem hlt', h.get hlt hlt'⟩

/-- Settles O58: each block steps at its own place, and a step keeps its number. -/
theorem instancesShareNothing : Obligations.InstancesShareNothing := by
  intro y
  obtain ⟨z, hz, each⟩ := y.step_total
  have hlen : z.instances.length = y.instances.length := each.length_eq.symm
  refine ⟨z, hz, hlen, ?_, fun n s hn => ?_⟩
  · rw [System.numbered, System.numbered, each.map_instNo, hlen]
    exact id
  · obtain ⟨t, ht, hs⟩ := each.getElem? hn
    exact ⟨t, ht, hs, step_instNo hs⟩

end Sys2Proof.Machine
end

section
/-! PROOF. Encoding: the fields of a command word as digits of a number, the checks of a decode one by one, and the opcode
map between commands and words (30_encoding.md R111 to R119, R122). -/

namespace Sys2Proof

/-! ## A command word as a number -/

theorem opcField_toNat (cmd : Word) : (opcField cmd).toNat = cmd.toNat % 2 ^ 8 := by
  simp [opcField]

theorem wField_eq (cmd : Word) : wField cmd = cmd.toNat / 2 ^ 8 % 2 ^ 7 := by
  simp [wField, Nat.shiftRight_eq_div_pow]

theorem lField_eq (cmd : Word) : lField cmd = cmd.toNat / 2 ^ 16 % 2 ^ 7 := by
  simp [lField, Nat.shiftRight_eq_div_pow]

theorem reservedBitSet_iff (cmd : Word) :
    reservedBitSet cmd = true ↔ cmd.toNat / 2 ^ 15 % 2 ≠ 0 ∨ cmd.toNat / 2 ^ 23 ≠ 0 := by
  have hbit : cmd.getLsbD 15 = true ↔ cmd.toNat / 2 ^ 15 % 2 ≠ 0 := by
    simp [BitVec.getLsbD, Nat.testBit_eq_decide_div_mod_eq]
  have hhigh : cmd.extractLsb' 23 41 = 0 ↔ cmd.toNat / 2 ^ 23 = 0 := by
    rw [← BitVec.toNat_inj, BitVec.extractLsb'_toNat, Nat.shiftRight_eq_div_pow, Nat.mod_eq_of_lt (by omega)]
    rfl
  simp only [reservedBitSet, Bool.or_eq_true, bne_iff_ne, ne_eq, hbit, hhigh]

/-! ## The opcode map -/

/-- A row spells commands of its own OPC and of the fields it takes (30_encoding.md R114, R115). -/
theorem make_fields {row : OpRow} (h : row ∈ opTable) {w l : ℕ} (hw : row.takesW = false → w = 0)
    (hl : row.takesL = false → l = 0) :
    (row.make w l).opc = row.opc ∧ (row.make w l).w = w ∧ (row.make w l).l = l := by
  revert row
  simp +contextual [opTable, Instr.opc, Instr.w, Instr.l]

theorem wellFormed_of_fields {i : Instr} (hw : i.w < 128) (hl : i.l < 128) : i.wellFormed = true := by
  cases i <;> simp_all [Instr.wellFormed, Instr.w, Instr.l, fieldFits]

/-- The rows' OPCs are those of 30_encoding.md R114. -/
theorem findRow_eq_none_iff (o : Byte) :
    findRow o = none ↔ o.toNat ∉ opTable.map fun r => r.opc.toNat := by
  simp [findRow, BitVec.toNat_inj]

/-! ## The checks of a decode -/

theorem decode_reservedOpcode {cmd : Word} (h : findRow (opcField cmd) = none) :
    decode cmd = .error .reservedOpcode := by
  simp [decode, h]

theorem decode_reservedBit {cmd : Word} {row : OpRow} (h : findRow (opcField cmd) = some row)
    (hr : reservedBitSet cmd = true) : decode cmd = .error .reservedBit := by
  simp [decode, h, hr]

theorem decode_unusedField {cmd : Word} {row : OpRow} (h : findRow (opcField cmd) = some row)
    (hr : reservedBitSet cmd = false)
    (hu : (wField cmd ≠ 0 ∧ row.takesW = false) ∨ (lField cmd ≠ 0 ∧ row.takesL = false)) :
    decode cmd = .error .unusedField := by
  simp [decode, h, hr, hu]

/-- A word that passes the checks is its row's command. -/
theorem decode_of_row {cmd : Word} {row : OpRow} (h : findRow (opcField cmd) = some row)
    (hr : reservedBitSet cmd = false) (hw : row.takesW = false → wField cmd = 0)
    (hl : row.takesL = false → lField cmd = 0) : decode cmd = .ok (row.make (wField cmd) (lField cmd)) := by
  have hu : ¬((wField cmd ≠ 0 ∧ row.takesW = false) ∨ (lField cmd ≠ 0 ∧ row.takesL = false)) := by tauto
  simp_all [decode]

/-! ## Encode and decode -/

/-- Settles O2: the encoder puts the fields where decode reads them, and the row of a command's OPC rebuilds it. -/
theorem decodeOfEncode : Obligations.DecodeOfEncode := by
  intro i hwf
  obtain ⟨hw, hl⟩ := fields_lt hwf
  obtain ⟨row, hrow, hmake, hnoW, hnoL⟩ := Laws.FieldUse.every i
  have hd := decode_of_row (cmd := encode i) (row := row)
  rw [opcField_encode, wField_encode i hw, lField_encode i hw hl, hmake] at hd
  exact hd hrow (reservedBitSet_encode i hw hl) hnoW hnoL

/-- A word without a reserved bit is its three fields. -/
theorem eq_ofNat_fields {cmd : Word} (h : reservedBitSet cmd = false) :
    cmd = BitVec.ofNat 64 (lField cmd * 2 ^ 16 + wField cmd * 2 ^ 8 + (opcField cmd).toNat) := by
  have hbits := (not_congr (reservedBitSet_iff cmd)).mp (by simp [h])
  rw [opcField_toNat, wField_eq, lField_eq, ← BitVec.toNat_inj, BitVec.toNat_ofNat]
  omega

/-- Settles O3: a word that decodes has no reserved bit, so it is its fields, which are the fields of the command. -/
theorem encodeOfDecode : Obligations.EncodeOfDecode := by
  intro cmd i h
  obtain ⟨row, hrow, hbits, hnoW, hnoL, rfl⟩ := decode_eq_ok h
  obtain ⟨hmem, hopc⟩ := findRow_mem hrow
  obtain ⟨ho, hw, hl⟩ := make_fields hmem hnoW hnoL
  have hw' : wField cmd < 128 := by rw [wField_eq]; omega
  have hl' : lField cmd < 128 := by rw [lField_eq]; omega
  rw [← hw] at hw'
  rw [← hl] at hl'
  refine ⟨wellFormed_of_fields hw' hl', ?_⟩
  rw [encode_eq_ofNat _ hw' hl', ho, hw, hl, hopc, ← eq_ofNat_fields hbits]

end Sys2Proof
end

section
/-! PROOF. The completion of a command word: the three checks on the word as a number, and the command or the fault that
follows (30_encoding.md R116, R122; 60_exceptions.md R271). -/

namespace Sys2Proof.Machine

/-- The OPCs whose commands take W (30_encoding.md R115). -/
theorem takesW_iff {row : OpRow} (h : row ∈ opTable) :
    row.takesW = true ↔ row.opc.toNat ∈ [0x10, 0x11, 0x12, 0x13, 0x14, 0x15, 0x29] := by
  revert row
  decide

/-- The OPCs whose commands take W and L (30_encoding.md R115). -/
theorem takesL_iff {row : OpRow} (h : row ∈ opTable) :
    row.takesL = true ↔ row.opc.toNat ∈ [0x12, 0x13, 0x14, 0x15] := by
  revert row
  decide

/-- A cycle out of reset without an access is the engine's edge alone. -/
theorem step_quiet {s t : State} (h : s.nextPins.quiet = true) (he : engineEdge exec (beginCycle s) = .next t) :
    step s = .next t := by
  simp only [PortCycle.quiet, Bool.and_eq_true, Bool.not_eq_true'] at h
  rw [step_running h.1 he, portAccess_none t h.2]

/-- In such a cycle a word that names no command latches ILLEGAL with its detail (60_exceptions.md R271). -/
theorem step_illegal {s : State} {cmd : Word} {e : DecodeError} (hi : s.inflight = some ⟨cmd, 1⟩)
    (hq : s.nextPins.quiet = true) (hd : decode cmd = .error e) :
    step s = .next (faultedWith 1 e.detail (afterCycle s)) :=
  step_quiet hq (engineEdge_lastCycle (s := afterCycle s) hi (.inr ⟨e, hd, rfl⟩)).1

/-- In such a cycle a word that decodes runs its command (45_control.md R261, R262). -/
theorem step_executes {s : State} {cmd : Word} {i : Instr} (hi : s.inflight = some ⟨cmd, 1⟩)
    (hq : s.nextPins.quiet = true) (hd : decode cmd = .ok i) : step s = exec i (afterCycle s) := by
  obtain ⟨t, ht⟩ := exec_total i (afterCycle s)
  rw [ht, step_quiet hq (engineEdge_lastCycle (s := afterCycle s) hi (.inl ⟨i, hd, ht⟩)).1]

/-- Settles O4: each check on the number is the one `decode` makes on the fields, by the row its OPC finds. -/
theorem decodeAtCompletion : Obligations.DecodeAtCompletion := by
  intro s cmd hi hq opc w l named reserved unused
  have hopc : (opcField cmd).toNat = opc := opcField_toNat cmd
  have hw : wField cmd = w := wField_eq cmd
  have hl : lField cmd = l := lField_eq cmd
  have hreserved : reservedBitSet cmd = true ↔ reserved := reservedBitSet_iff cmd
  have hnamed : findRow (opcField cmd) = none ↔ ¬named := by
    rw [findRow_eq_none_iff, hopc]
    rfl
  have hbits (hr : ¬reserved) : reservedBitSet cmd = false := Bool.eq_false_iff.mpr (mt hreserved.mp hr)
  cases hrow : findRow (opcField cmd) with
  | none =>
    have hn : ¬named := hnamed.mp hrow
    exact ⟨fun _ => step_illegal hi hq (decode_reservedOpcode hrow), fun h => absurd h hn, fun h => absurd h hn,
      fun h => absurd h hn⟩
  | some row =>
    have hn : named := by_contra fun h => by simp [hnamed.mpr h] at hrow
    obtain ⟨hmem, hrowOpc⟩ := findRow_mem hrow
    have hunused : unused ↔
        (wField cmd ≠ 0 ∧ row.takesW = false) ∨ (lField cmd ≠ 0 ∧ row.takesL = false) := by
      rw [← Bool.not_eq_true, ← Bool.not_eq_true, takesW_iff hmem, takesL_iff hmem, hrowOpc, hopc, hw, hl]
    refine ⟨fun h => absurd hn h, fun _ hr => ?_, fun _ hr hu => ?_, fun _ hr hu => ?_⟩
    · exact step_illegal hi hq (decode_reservedBit hrow (hreserved.mpr hr))
    · exact step_illegal hi hq (decode_unusedField hrow (hbits hr) (hunused.mp hu))
    · have hnoW : row.takesW = false → wField cmd = 0 := fun hf => by_contra fun hne => hu (hunused.mpr (.inl ⟨hne, hf⟩))
      have hnoL : row.takesL = false → lField cmd = 0 := fun hf => by_contra fun hne => hu (hunused.mpr (.inr ⟨hne, hf⟩))
      obtain ⟨ho, hiw, hil⟩ := make_fields hmem hnoW hnoL
      exact ⟨_, by rw [ho, hrowOpc, hopc], hiw.trans hw, hil.trans hl,
        step_executes hi hq (decode_of_row hrow (hbits hr) hnoW hnoL)⟩

/-- Settles O1: the table is decided, its words being fixed, and GETU's width 65 breaks its contract before X0 is read. -/
theorem sampleCommandWords : Obligations.SampleCommandWords := by
  refine ⟨by decide +kernel, fun s => ?_⟩
  exact exec_of_error (f := ⟨.contract, 0x80⟩) (by simp [commandRule, getU, contract_wide])

end Sys2Proof.Machine
end

section
/-! PROOF. A command's rule as a function of its listed operands to its listed results: it is its rule on a register file
that holds the operands alone, with the results alone taken from the answer (30_encoding.md R113). -/

namespace Sys2Proof.Machine

/-! ## Listed registers -/

/-- `x` with the listed registers taken from `y`. -/
def Regs.overwrite (x : Regs) (l : List (Fin 8)) (y : Regs) : Regs where
  x0 := if 0 ∈ l then y.x0 else x.x0
  x1 := if 1 ∈ l then y.x1 else x.x1
  x2 := if 2 ∈ l then y.x2 else x.x2
  x3 := if 3 ∈ l then y.x3 else x.x3
  x4 := if 4 ∈ l then y.x4 else x.x4
  x5 := if 5 ∈ l then y.x5 else x.x5
  x6 := if 6 ∈ l then y.x6 else x.x6
  x7 := if 7 ∈ l then y.x7 else x.x7

theorem get_overwrite (x y : Regs) (l : List (Fin 8)) (r : Fin 8) :
    (x.overwrite l y).get r = if r ∈ l then y.get r else x.get r := by
  fin_cases r <;> rfl

/-- The operands a command reads, and 0 in every other register. -/
def Regs.operands (x : Regs) (i : Instr) : Regs := Regs.zero.overwrite (readsOf i) x

/-- The register file with the results a command writes taken from `y`. -/
def Regs.withResults (x : Regs) (i : Instr) (y : Regs) : Regs := x.overwrite (writesOf i) y

theorem get_withResults_of_mem {i : Instr} {r : Fin 8} (x y : Regs) (h : r ∈ writesOf i) :
    (x.withResults i y).get r = y.get r :=
  (get_overwrite x y _ r).trans (if_pos h)

theorem get_withResults_of_notMem {i : Instr} {r : Fin 8} (x y : Regs) (h : r ∉ writesOf i) :
    (x.withResults i y).get r = x.get r :=
  (get_overwrite x y _ r).trans (if_neg h)

theorem operands_congr {i : Instr} {x x' : Regs} (h : ∀ r ∈ readsOf i, x'.get r = x.get r) :
    x'.operands i = x.operands i := by
  refine regs_ext fun r => ?_
  rw [Regs.operands, Regs.operands, get_overwrite, get_overwrite]
  split_ifs with hr
  · exact h r hr
  · rfl

/-! ## Rules -/

/-- A rule reads no register outside the operands and changes none outside the results: with the change of the answer
moved past its reads and checks, both sides compute the same values. -/
theorem commandRule_eq_map (i : Instr) (x : Regs) :
    commandRule i x = x.withResults i <$> commandRule i (x.operands i) := by
  cases i with
  | nop | fitsu | fitss | shl | shr | sar => rfl
  | getu | gets | newu | news => simp only [commandRule, intoX2, map_bind]; rfl
  | sqrnd | sqclamp | sdq | sattrunc => simp only [commandRule, intoX2, map_bind]; rfl
  | rgb2ypp => simp only [commandRule, rgb2yppRule, map_bind]; rfl
  | ypp2rgb => simp only [commandRule, ypp2rgbRule, map_bind]; rfl
  | pack => simp only [commandRule, packRule, map_bind]; rfl
  | unpack => simp only [commandRule, unpackRule, map_bind]; rfl
  | dct => simp only [commandRule, dctRule, writeQuad, map_bind]; rfl
  | idct => simp only [commandRule, idctRule, writeQuad, map_bind]; rfl
  | avg4 => simp only [commandRule, avg4Rule, map_bind]; rfl
  | quant => simp only [commandRule, quantRule, map_bind]; rfl
  | dequant => simp only [commandRule, dequantRule, writeQuad, bind_assoc, map_bind]; rfl

/-- Settles O13: a completed command's results are put into the old registers, and a fault writes none. -/
theorem writesOnlyListedRegisters : Obligations.WritesOnlyListedRegisters := by
  intro i s t h r hr
  rw [exec_eq_finish, commandRule_eq_map] at h
  cases hrule : commandRule i (s.x.operands i) with
  | ok y =>
    rw [hrule] at h
    cases h
    exact get_withResults_of_notMem s.x y hr
  | error f =>
    rw [hrule] at h
    cases h
    rfl

/-- Settles O14: register files that agree on the operands give the rule one answer, and no other part of the outcome
depends on the registers. -/
theorem readsOnlyListedRegisters : Obligations.ReadsOnlyListedRegisters := by
  intro i s t t' x' hx h h'
  rw [exec_eq_finish, commandRule_eq_map] at h h'
  rw [operands_congr hx] at h'
  cases hrule : commandRule i (s.x.operands i) with
  | ok y =>
    rw [hrule] at h h'
    cases h
    cases h'
    exact ⟨rfl, rfl, rfl, fun _ r hr =>
      (get_withResults_of_mem x' y hr).trans (get_withResults_of_mem s.x y hr).symm⟩
  | error f =>
    rw [hrule] at h h'
    cases h
    cases h'
    exact ⟨rfl, rfl, rfl, fun hcount => absurd hcount (by simp)⟩

end Sys2Proof.Machine
end

section
/-! PROOF. Binary64 operands read in the order a rule lists them (00_scope.md R24): a rule goes on when all are finite, and
raises NONFINITE of the first that is not. -/

namespace Sys2Proof.Machine

theorem firstNonFinite_eq_none {x : Regs} {l : List (Fin 8)} :
    firstNonFinite x l = none ↔ ∀ i ∈ l, isFinite (x.get i) = true := by
  simp [firstNonFinite]

theorem firstNonFinite_cons_finite {x : Regs} {i : Fin 8} (l : List (Fin 8)) (h : isFinite (x.get i) = true) :
    firstNonFinite x (i :: l) = firstNonFinite x l := by
  simp [firstNonFinite, h]

theorem firstNonFinite_cons_nonfinite {x : Regs} {i : Fin 8} (l : List (Fin 8)) (h : isFinite (x.get i) = false) :
    firstNonFinite x (i :: l) = some i := by
  simp [firstNonFinite, h]

/-- Reading an operand raises NONFINITE of the first non-finite one if what follows does so for the operands left
(00_scope.md R24). -/
theorem readF64_bind_firstNonFinite {α : Type} {x : Regs} {i r : Fin 8} {l : List (Fin 8)} {g : ℚ → Rule α}
    (h : firstNonFinite x (i :: l) = some r)
    (hg : firstNonFinite x l = some r → ∀ v, g v = .error ⟨.nonfinite, regDetail r⟩) :
    readF64 x i >>= g = .error ⟨.nonfinite, regDetail r⟩ := by
  cases hi : isFinite (x.get i) with
  | true =>
    rw [readF64_finite hi, rule_bind_ok]
    exact hg (firstNonFinite_cons_finite l hi ▸ h) _
  | false =>
    rw [firstNonFinite_cons_nonfinite l hi] at h
    cases h
    rw [readF64_nonfinite hi, rule_bind_error]

end Sys2Proof.Machine
end

section
/-! PROOF. The colour-space converter (40_converter.md R140 to R144): the two matrices undo each other, rounding a clamped
value cannot fail, and a scaled and clamped channel is a floor. -/

namespace Sys2Proof.Machine

/-! ## The matrices -/

/-- Settles O29: the coefficients are those of the exact inverse, so each composition is an identity of linear forms. -/
theorem inverseMatrixIsExact : Obligations.InverseMatrixIsExact := by
  refine ⟨fun r g b => ?_, fun y pb pr => ?_⟩ <;> simp only [redOf, greenOf, blueOf, lumaOf, pbOf, prOf, inverseK]
  · refine ⟨?_, ?_, ?_⟩ <;> ring
  · refine ⟨?_, ?_, ?_⟩ <;> ring

/-- Three equal channels cancel in the second and the third row: each row's coefficients sum to 0. -/
theorem pbOf_gray (c : ℚ) : pbOf c c c = 0 := by
  unfold pbOf
  ring

theorem prOf_gray (c : ℚ) : prOf c c c = 0 := by
  unfold prOf
  ring

/-! ## RGB2YPP -/

/-- A value clamped into [-1, 1] is rounded, not refused (40_converter.md R142). -/
theorem rnd64_clamp {i : Fin 8} {v lo hi : ℚ} (h : lo ≤ hi) (h1 : -1 ≤ lo) (h2 : hi ≤ 1) :
    rnd64 i (clamp v lo hi) = .ok (rnd64Bits (max lo (min v hi))) := by
  rw [rnd64_inRange (clamp_lt_limit h h1 h2), clamp_eq_max_min v lo hi h]

/-- The register file that RGB2YPP leaves, its channels scaled to [0, 1] being r, g and b. -/
def Regs.withYpp (x : Regs) (r g b : ℚ) : Regs :=
  { x with
    x0 := rnd64Bits (max 0 (min (lumaOf r g b) 1))
    x1 := rnd64Bits (max (-1 / 2) (min (pbOf r g b) (1 / 2)))
    x2 := rnd64Bits (max (-1 / 2) (min (prOf r g b) (1 / 2))) }

theorem rgb2yppRule_ok {x : Regs} (h : x.x3 ≠ 0) :
    rgb2yppRule x = .ok (x.withYpp (x.x0.toNat / x.x3.toNat) (x.x1.toNat / x.x3.toNat) (x.x2.toNat / x.x3.toNat)) := by
  have hd : (u64 x.x3 != 0) = true := bne_iff_ne.mpr fun h0 => h (BitVec.eq_of_toNat_eq h0)
  have unit (i : Fin 8) (v : ℚ) : rnd64 i (clamp v 0 1) = _ := rnd64_clamp (by norm_num) (by norm_num) le_rfl
  have half (i : Fin 8) (v : ℚ) : rnd64 i (clamp v (-1 / 2) (1 / 2)) = _ :=
    rnd64_clamp (by norm_num) (by norm_num) (by norm_num)
  simp only [rgb2yppRule, hd, unit, half, require_true, rule_bind_ok, rule_pure]
  rfl

theorem rgb2yppRule_zeroDenominator {x : Regs} (h : x.x3 = 0) : rgb2yppRule x = .error ⟨.divzero, 3⟩ := by
  have hd : (u64 x.x3 != 0) = false := by rw [h]; rfl
  rw [rgb2yppRule, hd, require_false, rule_bind_error]

/-- Settles O27: a nonzero denominator lets the rule reach three roundings that cannot fail, and 0 stops it first. -/
theorem rgb2yppResult : Obligations.Rgb2yppResult :=
  ⟨by decide +kernel, fun _ => ⟨fun h => exec_of_ok (i := .rgb2ypp) (rgb2yppRule_ok h),
    fun h => exec_of_error (i := .rgb2ypp) (rgb2yppRule_zeroDenominator h)⟩⟩

/-- Settles O28: equal channels have exact Pb and Pr of 0, which clamping keeps and rounding takes to +0. -/
theorem grayHasNoChroma : Obligations.GrayHasNoChroma := by
  intro s t h01 h12 hd h
  have hzero : rnd64Bits (max (-1 / 2) (min 0 (1 / 2))) = 0 := by norm_num
  rw [exec_of_ok (i := .rgb2ypp) (rgb2yppRule_ok hd), h01, h12] at h
  cases h
  simp only [complete_x, Regs.withYpp, pbOf_gray, prOf_gray, hzero, and_self]

/-! ## YPP2RGB -/

/-- The register file that YPP2RGB leaves, its operands having the values y, pb and pr. -/
def Regs.withRgb (x : Regs) (y pb pr : ℚ) : Regs :=
  { x with
    x0 := scaleTrunc (redOf y pb pr) x.x3.toNat
    x1 := scaleTrunc (greenOf y pb pr) x.x3.toNat
    x2 := scaleTrunc (blueOf y pb pr) x.x3.toNat }

theorem ypp2rgbRule_ok {x : Regs} (h : firstNonFinite x [0, 1, 2] = none) :
    ypp2rgbRule x = .ok (x.withRgb (f64Value x.x0) (f64Value x.x1) (f64Value x.x2)) := by
  have hfin := firstNonFinite_eq_none.mp h
  rw [ypp2rgbRule, readF64_finite (hfin 0 (by decide)), readF64_finite (hfin 1 (by decide)),
    readF64_finite (hfin 2 (by decide))]
  rfl

theorem ypp2rgbRule_nonfinite {x : Regs} {r : Fin 8} (h : firstNonFinite x [0, 1, 2] = some r) :
    ypp2rgbRule x = .error ⟨.nonfinite, regDetail r⟩ :=
  readF64_bind_firstNonFinite h fun h _ => readF64_bind_firstNonFinite h fun h _ =>
    readF64_bind_firstNonFinite h fun h => nomatch h

/-- Settles O30: finite operands reach the matrix, whose scaled and clamped outputs are floors; otherwise the reads stop at
the first that is not finite. -/
theorem ypp2rgbResult : Obligations.Ypp2rgbResult := by
  refine ⟨by decide +kernel, fun s => ⟨fun h => ?_,
    fun r h => exec_of_error (i := .ypp2rgb) (ypp2rgbRule_nonfinite h)⟩⟩
  rw [exec_of_ok (i := .ypp2rgb) (ypp2rgbRule_ok h), Regs.withRgb]
  simp only [scaleTrunc_eq_floor]
  rfl

end Sys2Proof.Machine
end

section
/-! PROOF. Bit fields as bit vectors: what a field of a word reads as, what replacing one leaves, and when a register's
value is that of its low bits (42_bitfield.md R181, R182, R186 to R189). -/

namespace Sys2Proof.Machine

/-! ## Fields of a word -/

theorem fieldValue_eq_toNat (word : Word) (w l : ℕ) : fieldValue word w l = (word.extractLsb' l w).toNat := by
  rw [fieldValue, u64, BitVec.extractLsb'_toNat, Nat.shiftRight_eq_div_pow]

theorem signField_toNat {w : ℕ} (c : BitVec w) : signField c.toNat w = c.toInt := by
  rw [signField, BitVec.toInt_eq_msb_cond, BitVec.msb_eq_decide]
  rcases w.eq_zero_or_pos with rfl | hw
  · simp [BitVec.eq_nil c]
  · simp [Nat.one_le_iff_ne_zero.mpr hw.ne']

/-- An unsigned field is zero-extended (42_bitfield.md R186). -/
theorem tc64_fieldValue (word : Word) (w l : ℕ) :
    tc64 (fieldValue word w l) = (word.extractLsb' l w).setWidth 64 := by
  rw [tc64_natCast, fieldValue_eq_toNat, BitVec.ofNat_toNat]

/-- A signed field is sign-extended (42_bitfield.md R187). -/
theorem tc64_signField (word : Word) (w l : ℕ) :
    tc64 (signField (fieldValue word w l) w) = (word.extractLsb' l w).signExtend 64 := by
  rw [fieldValue_eq_toNat, signField_toNat]
  rfl

/-! ## Replacing a field -/

/-- Bits [l, l + w) are the field's, and the others the word's (42_bitfield.md R188, R189). -/
theorem getLsbD_replaceField (word : Word) {w l : ℕ} (c : BitVec w) {k : ℕ} (hk : k < 64) :
    (replaceField word w l c.toNat).getLsbD k =
      if l ≤ k ∧ k < l + w then c.getLsbD (k - l) else word.getLsbD k := by
  have hmask : (mask w * 2 ^ l).testBit k = decide (l ≤ k ∧ k < l + w) := by
    rw [Nat.testBit_mul_two_pow, mask, Nat.testBit_two_pow_sub_one, ← Bool.decide_and]
    exact decide_eq_decide.mpr (by omega)
  rw [replaceField, tc64_natCast, tc64_natCast, u64, BitVec.getLsbD_ofNat, Nat.testBit_or, Nat.testBit_mul_two_pow,
    BitVec.testBit_toNat, BitVec.testBit_toNat, BitVec.getLsbD_and, BitVec.getLsbD_not, BitVec.getLsbD_ofNat, hmask]
  split_ifs with h
  · simp [hk, h]
  · have hc : (decide (l ≤ k) && c.getLsbD (k - l)) = false := by
      by_cases hl : l ≤ k
      · simp [BitVec.getLsbD_of_ge c (k - l) (by omega)]
      · simp [hl]
    simp [hk, h, hc]

/-- A field put right below the fields a word holds extends them by one (41_codeword.md R160, R161). -/
theorem replaceField_append {n w : ℕ} (l : ℕ) (v : BitVec n) (c : BitVec w) :
    replaceField (v.setWidth 64 <<< (w + l)) w l c.toNat = (v ++ c).setWidth 64 <<< l := by
  refine BitVec.eq_of_getLsbD_eq fun k hk => ?_
  rw [getLsbD_replaceField _ c hk]
  simp only [BitVec.getLsbD_shiftLeft, BitVec.getLsbD_setWidth, BitVec.getLsbD_append, hk,
    show k - l < 64 by omega, show k - (w + l) < 64 by omega, decide_true, Bool.true_and]
  by_cases hl : k < l
  · simp [hl, show ¬l ≤ k by omega, show k < w + l by omega]
  · by_cases hw : k < l + w
    · simp [hl, hw, show l ≤ k by omega, show k - l < w by omega]
    · simp [hl, hw, show ¬k < w + l by omega, show ¬k - l < w by omega, show k - l - w = k - (w + l) by omega]

/-- The first field goes into a zero word. -/
theorem replaceField_zero {w : ℕ} (l : ℕ) (c : BitVec w) : replaceField 0 w l c.toNat = c.setWidth 64 <<< l := by
  simpa using replaceField_append l 0#0 c

/-! ## Values that fit a field -/

theorem fitsU_iff {n w : ℕ} : fitsU n w = true ↔ n < 2 ^ w := by
  have := Nat.two_pow_pos w
  rw [fitsU, mask, decide_eq_true_iff]
  omega

theorem fitsS_iff {n : ℤ} {w : ℕ} (h : 1 ≤ w) : fitsS n w = true ↔ -2 ^ (w - 1) ≤ n ∧ n < 2 ^ (w - 1) := by
  simp only [fitsS, h, decide_true, Bool.true_and, Bool.and_eq_true, decide_eq_true_iff, Int.le_sub_one_iff]

theorem toNat_extractLsb'_of_fitsU {p : Word} {w : ℕ} (h : fitsU (u64 p) w = true) :
    (p.extractLsb' 0 w).toNat = u64 p := by
  rw [BitVec.extractLsb'_toNat, Nat.shiftRight_zero]
  exact Nat.mod_eq_of_lt (fitsU_iff.mp h)

theorem extractLsb'_zero_eq_ofInt (p : Word) {w : ℕ} (h : w ≤ 64) : p.extractLsb' 0 w = BitVec.ofInt w (i64 p) := by
  rw [← BitVec.setWidth_eq_extractLsb' h, ← BitVec.signExtend_eq_setWidth_of_le p h]
  rfl

/-- The field a signed value is written as is its low bits (42_bitfield.md R189). -/
theorem toNat_extractLsb'_i64 (p : Word) {w : ℕ} (h : w ≤ 64) :
    (p.extractLsb' 0 w).toNat = (i64 p % 2 ^ w).toNat := by
  rw [extractLsb'_zero_eq_ofInt p h, BitVec.toNat_ofInt, Nat.cast_pow, Nat.cast_ofNat]

theorem setWidth_extractLsb'_of_fitsU {p : Word} {w : ℕ} (h : fitsU (u64 p) w = true) :
    (p.extractLsb' 0 w).setWidth 64 = p := by
  refine BitVec.eq_of_toNat_eq ?_
  rw [BitVec.toNat_setWidth, toNat_extractLsb'_of_fitsU h]
  exact Nat.mod_eq_of_lt p.isLt

theorem signExtend_extractLsb'_of_fitsS {p : Word} {w : ℕ} (h1 : 1 ≤ w) (h : w ≤ 64) (hp : fitsS (i64 p) w = true) :
    (p.extractLsb' 0 w).signExtend 64 = p := by
  obtain ⟨lo, hi⟩ := (fitsS_iff h1).mp hp
  refine BitVec.eq_of_toInt_eq ?_
  rw [BitVec.toInt_signExtend_of_le h, extractLsb'_zero_eq_ofInt p h]
  exact BitVec.toInt_ofInt_eq_self h1 lo hi

theorem extractLsb'_setWidth_self {w : ℕ} (c : BitVec w) (h : w ≤ 64) : (c.setWidth 64).extractLsb' 0 w = c := by
  rw [BitVec.extractLsb'_setWidth_of_le (by omega), BitVec.extractLsb'_eq_self]

theorem extractLsb'_signExtend_self {w : ℕ} (c : BitVec w) (h : w ≤ 64) : (c.signExtend 64).extractLsb' 0 w = c := by
  rw [extractLsb'_zero_eq_ofInt _ h, i64, BitVec.toInt_signExtend_of_le h, BitVec.ofInt_toInt]

/-- A zero-extended field fits its width. -/
theorem fitsU_setWidth {w : ℕ} (c : BitVec w) (h : w ≤ 64) : fitsU (u64 (c.setWidth 64)) w = true := by
  rw [fitsU_iff, u64, BitVec.toNat_setWidth_of_le h]
  exact c.isLt

/-- A sign-extended field fits its width. -/
theorem fitsS_signExtend {w : ℕ} (c : BitVec w) (h1 : 1 ≤ w) (h : w ≤ 64) :
    fitsS (i64 (c.signExtend 64)) w = true := by
  rw [fitsS_iff h1, i64, BitVec.toInt_signExtend_of_le h]
  exact ⟨BitVec.le_toInt c, BitVec.toInt_lt⟩

end Sys2Proof.Machine
end

section
/-! PROOF. PACK and UNPACK: the codeword as the concatenation of its six fields, the first field that does not fit, and the
round trips (41_codeword.md R160 to R164, R170, R171). -/

namespace Sys2Proof.Machine

/-! ## The fields of a record -/

/-- Register r holds a value that its field of the codeword can hold (41_codeword.md R162). -/
def Regs.FieldFits (x : Regs) (r : Fin 8) : Prop :=
  if r = 0 then x.x0.toNat ≤ 511
  else if r ≤ 3 then -16 ≤ (x.get r).toInt ∧ (x.get r).toInt ≤ 15
  else (x.get r).toNat ≤ 15

/-- The check PACK makes of register r (41_codeword.md R162). -/
def Regs.fieldCheck (x : Regs) (r : Fin 8) : Bool :=
  if r = 0 then fitsU (u64 x.x0) 9 else if r ≤ 3 then fitsS (i64 (x.get r)) 5 else fitsU (u64 (x.get r)) 4

theorem fieldCheck_iff (x : Regs) (r : Fin 8) : x.fieldCheck r = true ↔ x.FieldFits r := by
  unfold Regs.fieldCheck Regs.FieldFits
  split_ifs
  · exact fitsU_iff.trans Nat.lt_succ_iff
  · exact (fitsS_iff (by decide)).trans (and_congr_right fun _ => Int.lt_add_one_iff (b := 15))
  · exact fitsU_iff.trans Nat.lt_succ_iff

/-- A record that fits passes PACK's six checks. -/
theorem fieldChecks_of_fits {x : Regs} (h : ∀ r : Fin 8, r ≤ 5 → x.FieldFits r) :
    fitsU (u64 x.x0) 9 = true ∧ fitsS (i64 x.x1) 5 = true ∧ fitsS (i64 x.x2) 5 = true ∧ fitsS (i64 x.x3) 5 = true ∧
    fitsU (u64 x.x4) 4 = true ∧ fitsU (u64 x.x5) 4 = true := by
  have check (r : Fin 8) (hr : r ≤ 5) : x.fieldCheck r = true := (fieldCheck_iff x r).mpr (h r hr)
  exact ⟨check 0 (by decide), check 1 (by decide), check 2 (by decide), check 3 (by decide), check 4 (by decide),
    check 5 (by decide)⟩

/-- The six fields side by side, qA on top (41_codeword.md R160). -/
def Regs.codeword (x : Regs) : BitVec 32 :=
  x.x0.extractLsb' 0 9 ++ x.x1.extractLsb' 0 5 ++ x.x2.extractLsb' 0 5 ++ x.x3.extractLsb' 0 5 ++
    x.x4.extractLsb' 0 4 ++ x.x5.extractLsb' 0 4

/-- The register file with the codeword's six fields in X0..X5, extended (41_codeword.md R163). -/
def Regs.withFields (x : Regs) (cw : Word) : Regs :=
  { x with
    x0 := (cw.extractLsb' 23 9).setWidth 64
    x1 := (cw.extractLsb' 18 5).signExtend 64
    x2 := (cw.extractLsb' 13 5).signExtend 64
    x3 := (cw.extractLsb' 8 5).signExtend 64
    x4 := (cw.extractLsb' 4 4).setWidth 64
    x5 := (cw.extractLsb' 0 4).setWidth 64 }

/-! ## PACK -/

theorem packRule_ok {x : Regs} (h : ∀ r : Fin 8, r ≤ 5 → x.FieldFits r) :
    packRule x = .ok { x with x6 := x.codeword.setWidth 64 } := by
  obtain ⟨h0, h1, h2, h3, h4, h5⟩ := fieldChecks_of_fits h
  simp only [packRule, h0, h1, h2, h3, h4, h5, require_true, insU_ok, insS_ok, Nat.reduceAdd, Nat.reduceLeDiff,
    rule_bind_ok]
  rw [← toNat_extractLsb'_of_fitsU h0, replaceField_zero 23, ← toNat_extractLsb'_i64 x.x1 (by decide),
    replaceField_append 18, ← toNat_extractLsb'_i64 x.x2 (by decide), replaceField_append 13,
    ← toNat_extractLsb'_i64 x.x3 (by decide), replaceField_append 8, ← toNat_extractLsb'_of_fitsU h4,
    replaceField_append 4, ← toNat_extractLsb'_of_fitsU h5, replaceField_append 0, BitVec.shiftLeft_zero]
  rfl

/-- A check of field q stops at the first field r that does not fit, if what follows does so where q is not r
(00_scope.md R24). -/
theorem require_bind_firstUnfit {α : Type} {x : Regs} {q r : Fin 8} {g : Unit → Rule α} (hq : q ≤ r)
    (hr : ¬x.FieldFits r) (hlt : ∀ q < r, x.FieldFits q) (hg : q < r → g () = .error ⟨.overflow, regDetail r⟩) :
    require (x.fieldCheck q) .overflow (regDetail q) >>= g = .error ⟨.overflow, regDetail r⟩ := by
  rcases hq.eq_or_lt with rfl | hq
  · rw [Bool.eq_false_iff.mpr (mt (fieldCheck_iff x q).mp hr), require_false, rule_bind_error]
  · rw [(fieldCheck_iff x q).mpr (hlt q hq), require_true, rule_bind_ok, hg hq]

theorem packRule_overflow {x : Regs} {r : Fin 8} (h5 : r ≤ 5) (hr : ¬x.FieldFits r) (hlt : ∀ q < r, x.FieldFits q) :
    packRule x = .error ⟨.overflow, regDetail r⟩ :=
  require_bind_firstUnfit (q := 0) (Fin.zero_le r) hr hlt fun h =>
    require_bind_firstUnfit (q := 1) (Fin.add_one_le_of_lt h) hr hlt fun h =>
      require_bind_firstUnfit (q := 2) (Fin.add_one_le_of_lt h) hr hlt fun h =>
        require_bind_firstUnfit (q := 3) (Fin.add_one_le_of_lt h) hr hlt fun h =>
          require_bind_firstUnfit (q := 4) (Fin.add_one_le_of_lt h) hr hlt fun h =>
            require_bind_firstUnfit (q := 5) (Fin.add_one_le_of_lt h) hr hlt fun h => absurd h5 (not_le.mpr h)

/-- Settles O23: where all six checks pass the fields are inserted side by side, and else the first failed one raises. -/
theorem packResult : Obligations.PackResult :=
  ⟨by decide +kernel, fun _ => ⟨fun h => exec_of_ok (i := .pack) (packRule_ok h),
    fun _ h5 hr hlt => exec_of_error (i := .pack) (packRule_overflow h5 hr hlt)⟩⟩

/-! ## UNPACK -/

/-- A field of the low half is a field of the word. -/
theorem extractLsb'_lowHalf (v : Word) {w l : ℕ} (h : l + w ≤ 32) :
    ((lowHalf v).setWidth 64).extractLsb' l w = v.extractLsb' l w := by
  rw [BitVec.extractLsb'_setWidth_of_le (by omega), lowHalf, BitVec.extractLsb'_extractLsb'_of_le h]

theorem unpackRule_ok (x : Regs) : unpackRule x = .ok (x.withFields x.x6) := by
  simp only [unpackRule, getU_ok, getS_ok, tc64_fieldValue, tc64_signField, extractLsb'_lowHalf, Nat.reduceAdd,
    Nat.reduceLeDiff, rule_bind_ok]
  rfl

/-- Settles O24: all six fields lie within the word, whatever it is, and below bit 32. -/
theorem unpackResult : Obligations.UnpackResult :=
  ⟨by decide +kernel, fun s => exec_of_ok (i := .unpack) (unpackRule_ok s.x)⟩

/-! ## Round trips -/

/-- A command that CMDCNT counts has completed with its rule's results (45_control.md R262, R263). -/
theorem exec_counted {i : Instr} {s t : State} (h : exec i s = .next t) (hc : t.cmdCnt = s.cmdCnt + 1) :
    ∃ x, commandRule i s.x = .ok x ∧ t = complete x s := by
  rcases exec_cases h with ok | ⟨f, -, rfl⟩
  · exact ok
  · exact absurd hc (by simp)

/-- PACK completes only where every field fits: the least that does not would raise (41_codeword.md R162). -/
theorem fieldFits_of_packRule_ok {x y : Regs} (h : packRule x = .ok y) (r : Fin 8) : r ≤ 5 → x.FieldFits r := by
  induction r using WellFoundedLT.induction with
  | ind r ih =>
    intro h5
    by_contra hr
    have := packRule_overflow h5 hr fun q hq => ih q hq (hq.le.trans h5)
    rw [h] at this
    cases this

/-- Fields side by side stand at the offsets of 41_codeword.md R160. -/
theorem extractLsb'_sixFields (qA : BitVec 9) (qB qC qD : BitVec 5) (pb pr : BitVec 4) :
    (qA ++ qB ++ qC ++ qD ++ pb ++ pr).extractLsb' 23 9 = qA ∧
    (qA ++ qB ++ qC ++ qD ++ pb ++ pr).extractLsb' 18 5 = qB ∧
    (qA ++ qB ++ qC ++ qD ++ pb ++ pr).extractLsb' 13 5 = qC ∧
    (qA ++ qB ++ qC ++ qD ++ pb ++ pr).extractLsb' 8 5 = qD ∧
    (qA ++ qB ++ qC ++ qD ++ pb ++ pr).extractLsb' 4 4 = pb ∧
    (qA ++ qB ++ qC ++ qD ++ pb ++ pr).extractLsb' 0 4 = pr := by
  refine ⟨?_, ?_, ?_, ?_, ?_, ?_⟩ <;>
    simp (disch := decide) only [BitVec.extractLsb'_append_eq_of_le, BitVec.extractLsb'_append_eq_of_add_le,
      Nat.reduceSub, BitVec.extractLsb'_eq_self]

theorem codeword_fields (x : Regs) :
    x.codeword.extractLsb' 23 9 = x.x0.extractLsb' 0 9 ∧ x.codeword.extractLsb' 18 5 = x.x1.extractLsb' 0 5 ∧
    x.codeword.extractLsb' 13 5 = x.x2.extractLsb' 0 5 ∧ x.codeword.extractLsb' 8 5 = x.x3.extractLsb' 0 5 ∧
    x.codeword.extractLsb' 4 4 = x.x4.extractLsb' 0 4 ∧ x.codeword.extractLsb' 0 4 = x.x5.extractLsb' 0 4 :=
  extractLsb'_sixFields _ _ _ _ _ _

/-- The fields of a record that fits are read back from its codeword (41_codeword.md R164). -/
theorem withFields_codeword {x : Regs} (h : ∀ r : Fin 8, r ≤ 5 → x.FieldFits r) :
    x.withFields (x.codeword.setWidth 64) = x := by
  obtain ⟨h0, h1, h2, h3, h4, h5⟩ := fieldChecks_of_fits h
  obtain ⟨e0, e1, e2, e3, e4, e5⟩ := codeword_fields x
  have signed {p : Word} (hp : fitsS (i64 p) 5 = true) : (p.extractLsb' 0 5).signExtend 64 = p :=
    signExtend_extractLsb'_of_fitsS (by decide) (by decide) hp
  simp (disch := decide) only [Regs.withFields, BitVec.extractLsb'_setWidth_of_le, e0, e1, e2, e3, e4, e5]
  rw [setWidth_extractLsb'_of_fitsU h0, signed h1, signed h2, signed h3, setWidth_extractLsb'_of_fitsU h4,
    setWidth_extractLsb'_of_fitsU h5]

/-- The fields of any codeword fit a record (41_codeword.md R164). -/
theorem fieldFits_withFields (x : Regs) (cw : Word) (r : Fin 8) (h : r ≤ 5) : (x.withFields cw).FieldFits r := by
  rw [← fieldCheck_iff]
  match r with
  | 0 => exact fitsU_setWidth (cw.extractLsb' 23 9) (by decide)
  | 1 => exact fitsS_signExtend (cw.extractLsb' 18 5) (by decide) (by decide)
  | 2 => exact fitsS_signExtend (cw.extractLsb' 13 5) (by decide) (by decide)
  | 3 => exact fitsS_signExtend (cw.extractLsb' 8 5) (by decide) (by decide)
  | 4 => exact fitsU_setWidth (cw.extractLsb' 4 4) (by decide)
  | 5 => exact fitsU_setWidth (cw.extractLsb' 0 4) (by decide)
  | 6 | 7 => exact absurd h (by decide)

/-- The six fields of a word tile its low half (41_codeword.md R161). -/
theorem sixFields_tile (cw : Word) :
    cw.extractLsb' 23 9 ++ cw.extractLsb' 18 5 ++ cw.extractLsb' 13 5 ++ cw.extractLsb' 8 5 ++ cw.extractLsb' 4 4 ++
      cw.extractLsb' 0 4 = cw.extractLsb' 0 32 := by
  simp (disch := decide) only [BitVec.extractLsb'_append_extractLsb'_eq_extractLsb']

/-- A record read from a word has the word's low half as its codeword (41_codeword.md R164). -/
theorem codeword_withFields (x : Regs) (cw : Word) : (x.withFields cw).codeword = cw.extractLsb' 0 32 := by
  simp (disch := decide) only [Regs.codeword, Regs.withFields, extractLsb'_setWidth_self, extractLsb'_signExtend_self]
  exact sixFields_tile cw

theorem unpack_after_pack {s t : State} (h : exec .pack s = .next t) (hc : t.cmdCnt = s.cmdCnt + 1) :
    ∃ u, exec .unpack t = .next u ∧ ∀ r : Fin 8, r ≤ 5 → u.x.get r = s.x.get r := by
  obtain ⟨x, hx, rfl⟩ := exec_counted h hc
  have fits := fieldFits_of_packRule_ok hx
  obtain rfl := Except.ok.inj ((packRule_ok fits).symm.trans hx)
  refine ⟨_, exec_of_ok (i := .unpack) (unpackRule_ok _), fun r hr => ?_⟩
  show ((s.x.withFields (s.x.codeword.setWidth 64)).set 6 (s.x.codeword.setWidth 64)).get r = s.x.get r
  rw [withFields_codeword fits]
  exact get_set_other s.x _ (by rintro rfl; exact absurd hr (by decide))

theorem pack_after_unpack {s t : State} (h : exec .unpack s = .next t) :
    exec .pack t = .next (completed { t.x with x6 := (s.x.x6.extractLsb' 0 32).setWidth 64 } t) := by
  rw [exec_of_ok (i := .unpack) (unpackRule_ok s.x)] at h
  cases h
  have hpack := packRule_ok (fieldFits_withFields s.x s.x.x6)
  rw [codeword_withFields] at hpack
  exact exec_of_ok (i := .pack) (s := complete (s.x.withFields s.x.x6) s) hpack

/-! ## The AC values of QUANT -/

/-- QUANT clamps an AC value and writes it as it is (43_dct_quant.md R216). -/
theorem toInt_quantAc (c : ℚ) : -15 ≤ (tc64 (quantAc c)).toInt ∧ (tc64 (quantAc c)).toInt ≤ 15 := by
  obtain ⟨lo, hi⟩ : -15 ≤ quantAc c ∧ quantAc c ≤ 15 := clamp_mem _ _ _ (by decide)
  rw [tc64, BitVec.toInt_ofInt_eq_self (by decide) (by omega) (by omega)]
  exact ⟨lo, hi⟩

theorem quantRule_ac {x y : Regs} (h : quantRule x = .ok y) {r : Fin 8} (hr : r ∈ ([1, 2, 3] : List (Fin 8))) :
    ∃ c, y.get r = tc64 (quantAc c) := by
  obtain ⟨q, -, h⟩ := rule_bind_eq_ok h
  obtain ⟨pb, -, h⟩ := rule_bind_eq_ok h
  obtain ⟨pr, -, h⟩ := rule_bind_eq_ok h
  obtain ⟨-, -, h⟩ := rule_bind_eq_ok h
  cases h
  simp only [List.mem_cons, List.not_mem_nil, or_false] at hr
  rcases hr with rfl | rfl | rfl <;> exact ⟨_, rfl⟩

/-- Settles O25: a record that PACK accepts is read back whole, any word's fields are accepted and tile its low half, and
QUANT clamps. -/
theorem packUnpackBijection : Obligations.PackUnpackBijection := by
  refine ⟨fun _ _ => unpack_after_pack, fun _ _ => pack_after_unpack, fun s t h hc r hr => ?_⟩
  obtain ⟨x, hx, rfl⟩ := exec_counted h hc
  obtain ⟨c, hac⟩ := quantRule_ac hx hr
  rw [complete_x, hac]
  exact toInt_quantAc c

/-! ## The stream -/

theorem codewordOfBytes_append (cw : Half) (rest : List Byte) :
    codewordOfBytes (codewordBytes cw ++ rest) = some (cw, rest) := by
  have hcw := cw.isLt
  simp only [codewordBytes, List.cons_append, List.nil_append, codewordOfBytes, BitVec.extractLsb'_toNat,
    Nat.shiftRight_eq_div_pow]
  congr 2
  refine BitVec.eq_of_toNat_eq ?_
  rw [BitVec.toNat_ofNat]
  omega

/-- Fewer than four bytes are a malformed stream (41_codeword.md R171). -/
theorem codewordOfBytes_short {bytes : List Byte} (h : bytes.length < 4) : codewordOfBytes bytes = none := by
  match bytes with
  | [] | [_] | [_, _] | [_, _, _] => rfl
  | _ :: _ :: _ :: _ :: _ => exact absurd h (by simp)

/-- Settles O26: the four bytes are the codeword's digits to base 256, and a shorter list has no four bytes to take. -/
theorem streamByteOrder : Obligations.StreamByteOrder :=
  ⟨fun _ => rfl, codewordOfBytes_append, fun _ => codewordOfBytes_short⟩

end Sys2Proof.Machine
end

section
/-! PROOF. A command word written as a number decodes to the command whose fields it adds up (30_encoding.md R119). -/

namespace Sys2Proof

theorem decode_ofNat_fields {i : Instr} (hw : i.w < 128) (hl : i.l < 128) :
    decode (BitVec.ofNat 64 (i.l * 2 ^ 16 + i.w * 2 ^ 8 + i.opc.toNat)) = .ok i := by
  rw [← encode_eq_ofNat i hw hl]
  exact decodeOfEncode i (wellFormed_of_fields hw hl)

/-- A command that takes no L has nothing above its W. -/
theorem decode_ofNat_width {i : Instr} (hw : i.w < 128) (hl : i.l = 0) :
    decode (BitVec.ofNat 64 (i.w * 2 ^ 8 + i.opc.toNat)) = .ok i := by
  simpa [hl] using decode_ofNat_fields hw (by omega)

end Sys2Proof
end

section
/-! PROOF. The bit-field commands: the predicates, reading and replacing a field, the faults of the contract, and
reading back what was inserted (42_bitfield.md R181 to R193). -/

namespace Sys2Proof.Machine

/-! ## The predicates -/

theorem boolWord_decide (p : Prop) [Decidable p] : boolWord (decide p) = if p then 1 else 0 := by
  simp only [boolWord, decide_eq_true_eq]

/-- The signed predicate as one condition (42_bitfield.md R182). -/
theorem fitsS_eq_decide (n : ℤ) (w : ℕ) :
    fitsS n w = decide (1 ≤ w ∧ -2 ^ (w - 1) ≤ n ∧ n ≤ 2 ^ (w - 1) - 1) := by
  simp only [fitsS, Bool.decide_and, Bool.and_assoc]

/-- Settles O18: the words are the encodings, and each result is the predicate's truth value as a word. -/
theorem fitPredicates : Obligations.FitPredicates := by
  refine ⟨fun w hw => ?_, fun w s => ⟨?_, ?_⟩⟩
  · exact ⟨decode_ofNat_width (i := .fitsu w) hw rfl, decode_ofNat_width (i := .fitss w) hw rfl⟩
  · rw [← boolWord_decide]
    exact exec_of_ok (i := .fitsu w) rfl
  · rw [← boolWord_decide, ← fitsS_eq_decide]
    exact exec_of_ok (i := .fitss w) rfl

/-! ## The contract -/

/-- A bit-field command checks its contract first, and what fails there is its fault (42_bitfield.md R183). -/
theorem exec_of_contract_error {i : Instr} {s : State} {w l : ℕ} {g : Unit → Rule Word} {f : Raise}
    (hi : commandRule i s.x = intoX2 s.x (contract w l >>= g)) (h : contract w l = .error f) :
    exec i s = .next (latchFault f.kind f.detail s) :=
  exec_of_error (by rw [hi, h, rule_bind_error, intoX2_error])

theorem contract_eq_ok {w l : ℕ} {u : Unit} (h : contract w l = .ok u) : w + l ≤ 64 := by
  obtain ⟨-, -, h⟩ := rule_bind_eq_ok h
  exact of_decide_eq_true (require_eq_ok h)

/-! ## GETU and GETS -/

theorem getuRule_ok (x : Regs) {w l : ℕ} (h : w + l ≤ 64) :
    commandRule (.getu w l) x = .ok { x with x2 := (x.x0.extractLsb' l w).setWidth 64 } := by
  rw [commandRule, getU_ok h, tc64_fieldValue, intoX2_ok]

theorem getsRule_ok (x : Regs) {w l : ℕ} (h : w + l ≤ 64) :
    commandRule (.gets w l) x = .ok { x with x2 := (x.x0.extractLsb' l w).signExtend 64 } := by
  rw [commandRule, getS_ok h, tc64_signField, intoX2_ok]

/-- Settles O19: within the contract the field is read and extended, and outside it the contract raises. -/
theorem getFields : Obligations.GetFields := by
  refine ⟨fun w hw l hl => ?_, fun w l s => ⟨fun h => ?_, fun h => ?_, fun h1 h2 => ?_⟩⟩
  · exact ⟨decode_ofNat_fields (i := .getu w l) hw hl, decode_ofNat_fields (i := .gets w l) hw hl⟩
  · exact ⟨exec_of_ok (getuRule_ok s.x h), exec_of_ok (getsRule_ok s.x h)⟩
  · exact ⟨exec_of_contract_error (i := .getu w l) rfl (contract_wide h),
      exec_of_contract_error (i := .gets w l) rfl (contract_wide h)⟩
  · exact ⟨exec_of_contract_error (i := .getu w l) rfl (contract_high h1 h2),
      exec_of_contract_error (i := .gets w l) rfl (contract_high h1 h2)⟩

/-! ## NEWU and NEWS -/

/-- X0 with its bits [l, l + w) replaced by the low w bits of X1 (42_bitfield.md R188, R189). -/
def Regs.inserted (x : Regs) (w l : ℕ) : Word := replaceField x.x0 w l (x.x1.extractLsb' 0 w).toNat

theorem getLsbD_inserted (x : Regs) (w l : ℕ) {k : ℕ} (hk : k < 64) :
    (x.inserted w l).getLsbD k = if l ≤ k ∧ k < l + w then x.x1.getLsbD (k - l) else x.x0.getLsbD k := by
  rw [Regs.inserted, getLsbD_replaceField _ _ hk]
  refine ite_congr rfl (fun h => ?_) fun _ => rfl
  rw [BitVec.getLsbD_extractLsb', zero_add, decide_eq_true (by omega), Bool.true_and]

theorem newuRule_ok {x : Regs} {w l : ℕ} (h : w + l ≤ 64) (hfit : fitsU (u64 x.x1) w = true) :
    commandRule (.newu w l) x = .ok { x with x2 := x.inserted w l } := by
  rw [commandRule, insU_ok h hfit, ← toNat_extractLsb'_of_fitsU hfit, intoX2_ok, Regs.inserted]

theorem newsRule_ok {x : Regs} {w l : ℕ} (h : w + l ≤ 64) (hfit : fitsS (i64 x.x1) w = true) :
    commandRule (.news w l) x = .ok { x with x2 := x.inserted w l } := by
  rw [commandRule, insS_ok h hfit, ← toNat_extractLsb'_i64 x.x1 (by omega), intoX2_ok, Regs.inserted]

theorem newuRule_overflow {x : Regs} {w l : ℕ} (h : w + l ≤ 64) (hfit : fitsU (u64 x.x1) w = false) :
    commandRule (.newu w l) x = .error ⟨.overflow, 1⟩ := by
  rw [commandRule, insU, contract_ok h, hfit]
  rfl

theorem newsRule_overflow {x : Regs} {w l : ℕ} (h : w + l ≤ 64) (hfit : fitsS (i64 x.x1) w = false) :
    commandRule (.news w l) x = .error ⟨.overflow, 1⟩ := by
  rw [commandRule, insS, contract_ok h, hfit]
  rfl

/-- Settles O20: the contract, then the fit of X1, then the replaced bits. -/
theorem newFields : Obligations.NewFields := by
  refine ⟨fun w hw l hl => ?_, fun w l s => ?_⟩
  · exact ⟨decode_ofNat_fields (i := .newu w l) hw hl, decode_ofNat_fields (i := .news w l) hw hl⟩
  · have bits (k : ℕ) : k < 64 → _ := getLsbD_inserted s.x w l (k := k)
    refine ⟨fun h hfit => ?_, fun h hfit => ?_, fun h hfit => ?_, fun h hfit => ?_, fun h => ?_, fun h1 h2 => ?_⟩
    · exact ⟨_, bits, exec_of_ok (newuRule_ok h (decide_eq_true hfit))⟩
    · exact ⟨_, bits, exec_of_ok (newsRule_ok h ((fitsS_eq_decide _ _).trans (decide_eq_true hfit)))⟩
    · exact exec_of_error (newuRule_overflow h (decide_eq_false hfit))
    · exact exec_of_error (newsRule_overflow h ((fitsS_eq_decide _ _).trans (decide_eq_false hfit)))
    · exact ⟨exec_of_contract_error (i := .newu w l) rfl (contract_wide h),
        exec_of_contract_error (i := .news w l) rfl (contract_wide h)⟩
    · exact ⟨exec_of_contract_error (i := .newu w l) rfl (contract_high h1 h2),
        exec_of_contract_error (i := .news w l) rfl (contract_high h1 h2)⟩

/-! ## Reading back -/

/-- An inserted field is the field read at the same place (42_bitfield.md R193). -/
theorem extractLsb'_inserted (x : Regs) {w l : ℕ} (h : w + l ≤ 64) :
    (x.inserted w l).extractLsb' l w = x.x1.extractLsb' 0 w := by
  refine BitVec.eq_of_getLsbD_eq fun k hk => ?_
  rw [BitVec.getLsbD_extractLsb', BitVec.getLsbD_extractLsb', getLsbD_inserted x w l (by omega),
    if_pos ⟨by omega, by omega⟩, Nat.add_sub_cancel_left, zero_add]

/-- A rule that checks the contract and then its operand goes on only where both hold. -/
theorem contract_require_eq_ok {α : Type} {w l : ℕ} {b : Bool} {k : FaultKind} {d : Byte} {g : Unit → Rule α} {r : α}
    (h : (contract w l >>= fun _ => require b k d >>= g) = .ok r) : w + l ≤ 64 ∧ b = true := by
  obtain ⟨_, hcontract, h⟩ := rule_bind_eq_ok h
  obtain ⟨_, hcheck, -⟩ := rule_bind_eq_ok h
  exact ⟨contract_eq_ok hcontract, require_eq_ok hcheck⟩

/-- NEWU completes only within the contract and with an X1 that fits. -/
theorem newuRule_eq_ok {x y : Regs} {w l : ℕ} (h : commandRule (.newu w l) x = .ok y) :
    w + l ≤ 64 ∧ fitsU (u64 x.x1) w = true := by
  obtain ⟨r, hr, -⟩ := intoX2_eq_ok h
  exact contract_require_eq_ok hr

/-- NEWS completes only within the contract and with an X1 that fits. -/
theorem newsRule_eq_ok {x y : Regs} {w l : ℕ} (h : commandRule (.news w l) x = .ok y) :
    w + l ≤ 64 ∧ fitsS (i64 x.x1) w = true := by
  obtain ⟨r, hr, -⟩ := intoX2_eq_ok h
  exact contract_require_eq_ok hr

/-- Nothing fits a signed width 0 (42_bitfield.md R182). -/
theorem one_le_of_fitsS {n : ℤ} {w : ℕ} (h : fitsS n w = true) : 1 ≤ w :=
  (of_decide_eq_true ((fitsS_eq_decide n w).symm.trans h)).1

/-- Settles O21: the field read back is X1's low bits, and extending them gives X1, which fits. -/
theorem fieldRoundTrip : Obligations.FieldRoundTrip := by
  refine fun w l s t => ⟨fun h hc => ?_, fun h hc => ?_⟩
  · obtain ⟨x, hx, rfl⟩ := exec_counted h hc
    obtain ⟨hwl, hfit⟩ := newuRule_eq_ok hx
    obtain rfl := Except.ok.inj ((newuRule_ok hwl hfit).symm.trans hx)
    refine ⟨_, exec_of_ok (getuRule_ok _ hwl), rfl, ?_⟩
    exact (congrArg _ (extractLsb'_inserted s.x hwl)).trans (setWidth_extractLsb'_of_fitsU hfit)
  · obtain ⟨x, hx, rfl⟩ := exec_counted h hc
    obtain ⟨hwl, hfit⟩ := newsRule_eq_ok hx
    obtain rfl := Except.ok.inj ((newsRule_ok hwl hfit).symm.trans hx)
    refine ⟨_, exec_of_ok (getsRule_ok _ hwl), rfl, ?_⟩
    exact (congrArg _ (extractLsb'_inserted s.x hwl)).trans
      (signExtend_extractLsb'_of_fitsS (one_le_of_fitsS hfit) (by omega) hfit)

end Sys2Proof.Machine
end

section
/-! PROOF. The shifts: each is the library's shift of bit vectors, by every amount (00_scope.md R23; 42_bitfield.md R190
to R192). -/

namespace Sys2Proof.Machine

theorem shl64_eq_shiftLeft (v : Word) (n : ℕ) : shl64 v n = v <<< n := by
  by_cases h : 64 ≤ n
  · rw [shl64, if_pos h, BitVec.shiftLeft_eq_zero h]
    rfl
  · rw [shl64, if_neg h, tc64_natCast]
    refine BitVec.eq_of_toNat_eq ?_
    rw [BitVec.toNat_ofNat, BitVec.toNat_shiftLeft, Nat.shiftLeft_eq, Nat.mod_mod, u64]

theorem lshr64_eq_ushiftRight (v : Word) (n : ℕ) : lshr64 v n = v >>> n := by
  by_cases h : 64 ≤ n
  · rw [lshr64, if_pos h, BitVec.ushiftRight_eq_zero h]
    rfl
  · rw [lshr64, if_neg h, tc64_natCast, u64, ← Nat.shiftRight_eq_div_pow, ← BitVec.toNat_ushiftRight,
      BitVec.ofNat_toNat, BitVec.setWidth_eq]

/-- From 64 on only copies of the sign are left (42_bitfield.md R192). -/
theorem sshiftRight_of_le (v : Word) {n : ℕ} (h : 64 ≤ n) :
    v.sshiftRight n = if v.msb then BitVec.allOnes 64 else 0 := by
  split_ifs with hm
  · rw [BitVec.sshiftRight_eq_of_msb_true hm, BitVec.ushiftRight_eq_zero h, BitVec.not_zero]
  · rw [BitVec.sshiftRight_eq_of_msb_false (Bool.eq_false_iff.mpr hm), BitVec.ushiftRight_eq_zero h]
    rfl

theorem ashr64_eq_sshiftRight (v : Word) (n : ℕ) : ashr64 v n = v.sshiftRight n := by
  by_cases h : 64 ≤ n
  · rw [ashr64, if_pos h, sshiftRight_of_le v h]
  · rw [ashr64, if_neg h, BitVec.sshiftRight_eq, Int.shiftRight_eq_div_pow, Nat.cast_pow, Nat.cast_ofNat]
    rfl

/-- Settles O22: each shift is the library's, which leaves no bit of the word from 64 on. -/
theorem shifts : Obligations.Shifts := by
  refine ⟨by decide +kernel, fun s => ?_⟩
  have shl : exec .shl s = _ := exec_of_ok (i := .shl) rfl
  have shr : exec .shr s = _ := exec_of_ok (i := .shr) rfl
  have sar : exec .sar s = _ := exec_of_ok (i := .sar) rfl
  rw [shl64_eq_shiftLeft] at shl
  rw [lshr64_eq_ushiftRight] at shr
  rw [ashr64_eq_sshiftRight] at sar
  refine ⟨⟨shl, shr, sar⟩, fun h => ?_⟩
  rw [shl, shr, sar, u64, BitVec.shiftLeft_eq_zero h, BitVec.ushiftRight_eq_zero h, sshiftRight_of_le _ h,
    BitVec.msb_eq_getLsbD_last]
  exact ⟨rfl, rfl, rfl⟩

end Sys2Proof.Machine
end

section
/-! PROOF. A block of four values read from X0..X3 and written back, in order: the first non-finite operand and the first
result out of range stop the rule (00_scope.md R18, R24; 43_dct_quant.md R212, R213). -/

namespace Sys2Proof.Machine

/-! ## Reading a block -/

/-- The exact values that X0..X3 denote (43_dct_quant.md R212). -/
def Regs.quad (x : Regs) : Quad := ⟨f64Value x.x0, f64Value x.x1, f64Value x.x2, f64Value x.x3⟩

theorem readQuad_finite {x : Regs} (h : ∀ i ∈ ([0, 1, 2, 3] : List (Fin 8)), isFinite (x.get i) = true) :
    readQuad x = .ok x.quad := by
  rw [readQuad, readF64_finite (h 0 (by decide)), readF64_finite (h 1 (by decide)), readF64_finite (h 2 (by decide)),
    readF64_finite (h 3 (by decide))]
  rfl

theorem readQuad_of_firstNonFinite {x : Regs} (h : firstNonFinite x [0, 1, 2, 3] = none) : readQuad x = .ok x.quad :=
  readQuad_finite (firstNonFinite_eq_none.mp h)

theorem quad_inRange {x : Regs} (h : firstNonFinite x [0, 1, 2, 3] = none) : x.quad.inRange :=
  (readQuad_eq_ok (readQuad_of_firstNonFinite h)).2

/-- Reading a block raises NONFINITE of the first non-finite operand if what follows does so for the operands left
(00_scope.md R24). -/
theorem readQuad_bind_firstNonFinite {α : Type} {x : Regs} {r : Fin 8} {l : List (Fin 8)} {g : Quad → Rule α}
    (h : firstNonFinite x (0 :: 1 :: 2 :: 3 :: l) = some r)
    (hg : firstNonFinite x l = some r → ∀ v, g v = .error ⟨.nonfinite, regDetail r⟩) :
    readQuad x >>= g = .error ⟨.nonfinite, regDetail r⟩ := by
  simp only [readQuad, bind_assoc, pure_bind]
  exact readF64_bind_firstNonFinite h fun h _ => readF64_bind_firstNonFinite h fun h _ =>
    readF64_bind_firstNonFinite h fun h _ => readF64_bind_firstNonFinite h fun h _ => hg h _

/-- A rule that reads a block and no other operand. -/
theorem readQuad_bind_nonfinite {α : Type} {x : Regs} {r : Fin 8} {g : Quad → Rule α}
    (h : firstNonFinite x [0, 1, 2, 3] = some r) : readQuad x >>= g = .error ⟨.nonfinite, regDetail r⟩ :=
  readQuad_bind_firstNonFinite h fun h => nomatch h

/-! ## Writing a block -/

/-- The register file with a block in X0..X3, each value rounded once. -/
def Regs.withQuad (x : Regs) (q : Quad) : Regs :=
  { x with x0 := rnd64Bits q.v1, x1 := rnd64Bits q.v2, x2 := rnd64Bits q.v3, x3 := rnd64Bits q.v4 }

/-- The values of a block in the order in which they are rounded. -/
def Quad.toList (q : Quad) : List ℚ := [q.v1, q.v2, q.v3, q.v4]

theorem inRange_of_forall_mem_toList {q : Quad} (h : ∀ v ∈ q.toList, |v| < rnd64Limit) : q.inRange := by
  simpa [Quad.toList, Quad.inRange] using h

/-- Rounding the first value of a list raises FPRANGE of the place n of the first value out of range, if what follows does so
for the values left (43_dct_quant.md R213). -/
theorem rnd64_bind_firstOutOfRange {α : Type} {i : Fin 8} {n k : ℕ} {q v : ℚ} {l : List ℚ} {g : Word → Rule α}
    (hn : n = i.val + k) (hk : (q :: l)[k]? = some v) (hv : rnd64Limit ≤ |v|)
    (hlt : ∀ p ∈ (q :: l).take k, |p| < rnd64Limit)
    (hg : ∀ j, n = i.val + 1 + j → l[j]? = some v → (∀ p ∈ l.take j, |p| < rnd64Limit) →
      ∀ w, g w = .error ⟨.fprange, BitVec.ofNat 8 n⟩) :
    rnd64 i q >>= g = .error ⟨.fprange, BitVec.ofNat 8 n⟩ := by
  cases k with
  | zero =>
    cases hk
    rw [rnd64_outOfRange hv, rule_bind_error, hn]
    rfl
  | succ j =>
    obtain ⟨hq, hl⟩ := List.forall_mem_cons.mp hlt
    rw [rnd64_inRange hq, rule_bind_ok]
    exact hg j (by omega) hk hl _

/-- The first value out of range raises FPRANGE of its place (43_dct_quant.md R213). -/
theorem writeQuad_firstOutOfRange {x : Regs} {q : Quad} {k : ℕ} {v : ℚ} (hk : q.toList[k]? = some v)
    (hv : rnd64Limit ≤ |v|) (hlt : ∀ p ∈ q.toList.take k, |p| < rnd64Limit) :
    writeQuad x q = .error ⟨.fprange, BitVec.ofNat 8 k⟩ :=
  rnd64_bind_firstOutOfRange (Nat.zero_add k).symm hk hv hlt fun _ hn hk hlt _ =>
    rnd64_bind_firstOutOfRange hn hk hv hlt fun _ hn hk hlt _ =>
      rnd64_bind_firstOutOfRange hn hk hv hlt fun _ hn hk hlt _ =>
        rnd64_bind_firstOutOfRange hn hk hv hlt fun _ _ hk => nomatch hk

end Sys2Proof.Machine
end

section
/-! PROOF. The DCT-2 kernel: the two transforms undo each other, and DCT, IDCT and AVG4 round their exact results once
(43_dct_quant.md R210 to R214). -/

namespace Sys2Proof.Machine

/-! ## The transforms -/

theorem dctInverse_dctForward (y : Quad) : dctInverse (dctForward y) = y := by
  simp only [dctInverse, dctForward]
  congr 1 <;> ring

theorem dctForward_dctInverse (y : Quad) : dctForward (dctInverse y) = y := by
  simp only [dctInverse, dctForward]
  congr 1 <;> ring

/-- Settles O34: each composition is an identity of linear forms. -/
theorem transformPairIsExact : Obligations.TransformPairIsExact := fun y =>
  ⟨dctInverse_dctForward y, dctForward_dctInverse y⟩

/-! ## DCT -/

theorem dctRule_ok {x : Regs} (h : firstNonFinite x [0, 1, 2, 3] = none) :
    dctRule x = .ok (x.withQuad (dctForward x.quad)) := by
  rw [dctRule, readQuad_of_firstNonFinite h, rule_bind_ok, writeQuad_inRange (dctForward_inRange (quad_inRange h))]
  rfl

/-- Settles O31: a finite block stays in range under the forward transform, so its coefficients are rounded. -/
theorem dctResult : Obligations.DctResult :=
  ⟨by decide +kernel, fun _ => ⟨fun h => exec_of_ok (i := .dct) (dctRule_ok h),
    fun _ h => exec_of_error (i := .dct) (readQuad_bind_nonfinite h)⟩⟩

/-! ## IDCT -/

theorem idctRule_finite {x : Regs} (h : firstNonFinite x [0, 1, 2, 3] = none) :
    idctRule x = writeQuad x (dctInverse x.quad) := by
  rw [idctRule, readQuad_of_firstNonFinite h, rule_bind_ok]

theorem idctRule_ok {x : Regs} (h : firstNonFinite x [0, 1, 2, 3] = none)
    (hout : ∀ q ∈ (dctInverse x.quad).toList, |q| < rnd64Limit) :
    idctRule x = .ok (x.withQuad (dctInverse x.quad)) := by
  rw [idctRule_finite h, writeQuad_inRange (inRange_of_forall_mem_toList hout)]
  rfl

theorem idctRule_fprange {x : Regs} {k : ℕ} {q : ℚ} (h : firstNonFinite x [0, 1, 2, 3] = none)
    (hk : (dctInverse x.quad).toList[k]? = some q) (hq : ¬|q| < rnd64Limit)
    (hlt : ∀ p ∈ (dctInverse x.quad).toList.take k, |p| < rnd64Limit) :
    idctRule x = .error ⟨.fprange, BitVec.ofNat 8 k⟩ := by
  rw [idctRule_finite h, writeQuad_firstOutOfRange hk (not_lt.mp hq) hlt]

/-- Settles O32: the four exact results are rounded in order, up to the first at or above the threshold. -/
theorem idctResult : Obligations.IdctResult := by
  unfold Obligations.IdctResult
  rw [← rnd64Limit_eq]
  exact ⟨by decide +kernel, fun s => ⟨fun h hout => exec_of_ok (i := .idct) (idctRule_ok h hout),
    fun h k q hk hq hlt => exec_of_error (i := .idct) (idctRule_fprange h hk hq hlt),
    fun r h => exec_of_error (i := .idct) (readQuad_bind_nonfinite h)⟩⟩

/-! ## AVG4 -/

/-- The average of a block is the first coefficient of its forward transform (43_dct_quant.md R214). -/
theorem avg4Rule_ok {x : Regs} (h : firstNonFinite x [0, 1, 2, 3] = none) :
    avg4Rule x = .ok { x with x0 := rnd64Bits (dctForward x.quad).v1 } := by
  obtain ⟨havg, -, -, -⟩ := dctForward_inRange (quad_inRange h)
  have hrnd : rnd64 0 ((x.quad.v1 + x.quad.v2 + x.quad.v3 + x.quad.v4) / 4) = _ := rnd64_inRange havg
  rw [avg4Rule, readQuad_of_firstNonFinite h, rule_bind_ok, hrnd]
  rfl

/-- Settles O33: the average of finite operands is in range, and is rounded. -/
theorem avg4Result : Obligations.Avg4Result :=
  ⟨by decide +kernel, fun _ => ⟨fun h => exec_of_ok (i := .avg4) (avg4Rule_ok h),
    fun _ h => exec_of_error (i := .avg4) (readQuad_bind_nonfinite h)⟩⟩

end Sys2Proof.Machine
end

section
/-! PROOF. The scalar quantizer: QUANT checks only its DC value, and DEQUANT only its chroma indices (43_dct_quant.md R215 to
R217). -/

namespace Sys2Proof.Machine

/-! ## QUANT -/

/-- The DC value that QUANT computes, before its check (43_dct_quant.md R216). -/
def Regs.quantDc (x : Regs) : ℤ := roundHA (dcScale * (dctForward x.quad).v1)

/-- The register file with the quantized record in X0..X5 (43_dct_quant.md R216). -/
def Regs.withRecord (x : Regs) : Regs :=
  { x with
    x0 := tc64 x.quantDc
    x1 := tc64 (quantAc (dctForward x.quad).v2)
    x2 := tc64 (quantAc (dctForward x.quad).v3)
    x3 := tc64 (quantAc (dctForward x.quad).v4)
    x4 := tc64 (chromaIndex (f64Value x.x4))
    x5 := tc64 (chromaIndex (f64Value x.x5)) }

/-- On finite operands the check of the DC value is all that can fail. -/
theorem quantRule_finite {x : Regs} (h : firstNonFinite x [0, 1, 2, 3, 4, 5] = none) :
    quantRule x = require (decide (0 ≤ x.quantDc) && decide (x.quantDc ≤ 2 ^ 64 - 1)) .overflow 0 >>= fun _ =>
      .ok x.withRecord := by
  have hfin := firstNonFinite_eq_none.mp h
  rw [quantRule, readQuad_finite fun i hi => hfin i (List.mem_append_left [4, 5] hi), readF64_finite (hfin 4 (by decide)),
    readF64_finite (hfin 5 (by decide))]
  rfl

theorem quantRule_ok {x : Regs} (h : firstNonFinite x [0, 1, 2, 3, 4, 5] = none) (h0 : 0 ≤ x.quantDc)
    (h64 : x.quantDc < 2 ^ 64) : quantRule x = .ok x.withRecord := by
  rw [quantRule_finite h, decide_eq_true h0, decide_eq_true (Int.le_sub_one_of_lt h64), Bool.true_and, require_true,
    rule_bind_ok]

theorem quantRule_overflow {x : Regs} (h : firstNonFinite x [0, 1, 2, 3, 4, 5] = none)
    (hdc : x.quantDc < 0 ∨ 2 ^ 64 ≤ x.quantDc) : quantRule x = .error ⟨.overflow, 0⟩ := by
  have hcheck : (decide (0 ≤ x.quantDc) && decide (x.quantDc ≤ 2 ^ 64 - 1)) = false := by
    rw [← Bool.decide_and, decide_eq_false_iff_not]
    omega
  rw [quantRule_finite h, hcheck, require_false, rule_bind_error]

theorem quantRule_nonfinite {x : Regs} {r : Fin 8} (h : firstNonFinite x [0, 1, 2, 3, 4, 5] = some r) :
    quantRule x = .error ⟨.nonfinite, regDetail r⟩ :=
  readQuad_bind_firstNonFinite h fun h _ => readF64_bind_firstNonFinite h fun h _ =>
    readF64_bind_firstNonFinite h fun h => nomatch h

/-- The AC value is the rounded one within -15..15 (43_dct_quant.md R215). -/
theorem quantAc_eq_max_min (c : ℚ) : quantAc c = max (-15) (min (roundHA (50 * c)) 15) :=
  clamp_eq_max_min _ _ _ (by decide)

/-- Settles O35: the reads go in order, the DC value is checked against an unsigned register, and clamping keeps the AC
values. -/
theorem quantResult : Obligations.QuantResult := by
  refine ⟨by decide +kernel, fun s => ⟨fun h h0 h64 => ?_,
    fun h hdc => exec_of_error (i := .quant) (quantRule_overflow h hdc),
    fun r h => exec_of_error (i := .quant) (quantRule_nonfinite h)⟩⟩
  rw [exec_of_ok (i := .quant) (quantRule_ok h h0 h64), Regs.withRecord]
  simp only [quantAc_eq_max_min, tc64_natCast]
  rfl

/-! ## DEQUANT -/

theorem dequantRule_ok {x : Regs} (h4 : x.x4.toNat ≤ 15) (h5 : x.x5.toNat ≤ 15) :
    dequantRule x = .ok { x.withQuad (dctInverse (dequantCoefficients x)) with
      x4 := chromaOf (x.x4.setWidth 4), x5 := chromaOf (x.x5.setWidth 4) } := by
  simp only [dequantRule, u64, h4, h5, decide_true, require_true, rule_bind_ok, writeQuad_inRange (dequant_inRange x),
    rule_pure, BitVec.ofNat_toNat]
  rfl

theorem dequantRule_contract_pb {x : Regs} (h4 : 15 < x.x4.toNat) : dequantRule x = .error ⟨.contract, 4⟩ := by
  simp only [dequantRule, u64, not_le.mpr h4, decide_false, require_false, rule_bind_error]

theorem dequantRule_contract_pr {x : Regs} (h4 : x.x4.toNat ≤ 15) (h5 : 15 < x.x5.toNat) :
    dequantRule x = .error ⟨.contract, 5⟩ := by
  simp only [dequantRule, u64, h4, not_le.mpr h5, decide_true, decide_false, require_true, require_false, rule_bind_ok,
    rule_bind_error]

/-- Settles O36: a record's coefficients are far below the threshold, so only a chroma index can be refused, Pb's first. -/
theorem dequantResult : Obligations.DequantResult :=
  ⟨by decide +kernel, fun _ => ⟨fun h4 h5 => exec_of_ok (i := .dequant) (dequantRule_ok h4 h5),
    fun h4 => exec_of_error (i := .dequant) (dequantRule_contract_pb h4),
    fun h4 h5 => exec_of_error (i := .dequant) (dequantRule_contract_pr h4 h5)⟩⟩

end Sys2Proof.Machine
end

section
/-! PROOF. The fixed-point scaler: which operands each command refuses, what it writes to X2, and its agreement
with QUANT (44_scaler.md R240 to R245). -/

namespace Sys2Proof.Machine

/-! ## The rounded product -/

/-- The exact product of X0 and X1, rounded once (44_scaler.md R241, R242). -/
def Regs.product (x : Regs) : ℤ := roundHA (f64Value x.x0 * f64Value x.x1)

/-- A rule that reads X0 and X1 goes on with their values where both are finite. -/
theorem readTwo_finite {α : Type} {x : Regs} {g : ℚ → ℚ → Rule α} (h : firstNonFinite x [0, 1] = none) :
    (do let v ← readF64 x 0; let s ← readF64 x 1; g v s) = g (f64Value x.x0) (f64Value x.x1) := by
  have hfin := firstNonFinite_eq_none.mp h
  rw [readF64_finite (hfin 0 (by decide)), readF64_finite (hfin 1 (by decide))]
  rfl

/-- A rule that reads X0 and X1 stops at the first that is not finite. -/
theorem readTwo_nonfinite {α : Type} {x : Regs} {r : Fin 8} {g : ℚ → ℚ → Rule α}
    (h : firstNonFinite x [0, 1] = some r) :
    (do let v ← readF64 x 0; let s ← readF64 x 1; g v s) = .error ⟨.nonfinite, regDetail r⟩ :=
  readF64_bind_firstNonFinite h fun h _ => readF64_bind_firstNonFinite h fun h => nomatch h

/-! ## SQRND -/

/-- On finite operands the check of the rounded product is all that can fail. -/
theorem sqrndRule_finite {x : Regs} (h : firstNonFinite x [0, 1] = none) :
    sqrndRule x = require (decide (-2 ^ 63 ≤ x.product) && decide (x.product ≤ 2 ^ 63 - 1)) .overflow 2 >>= fun _ =>
      .ok (tc64 x.product) :=
  readTwo_finite h

theorem sqrndRule_ok {x : Regs} (h : firstNonFinite x [0, 1] = none)
    (lo : -2 ^ 63 ≤ x.product) (hi : x.product < 2 ^ 63) :
    commandRule .sqrnd x = .ok { x with x2 := tc64 x.product } := by
  rw [commandRule, sqrndRule_finite h, decide_eq_true lo, decide_eq_true (Int.le_sub_one_of_lt hi), Bool.true_and,
    require_true, rule_bind_ok, intoX2_ok]

theorem sqrndRule_overflow {x : Regs} (h : firstNonFinite x [0, 1] = none)
    (hq : x.product < -2 ^ 63 ∨ 2 ^ 63 ≤ x.product) : commandRule .sqrnd x = .error ⟨.overflow, 2⟩ := by
  have hcheck : (decide (-2 ^ 63 ≤ x.product) && decide (x.product ≤ 2 ^ 63 - 1)) = false := by
    rw [← Bool.decide_and, decide_eq_false_iff_not]
    omega
  rw [commandRule, sqrndRule_finite h, hcheck, require_false, rule_bind_error, intoX2_error]

theorem sqrndRule_nonfinite {x : Regs} {r : Fin 8} (h : firstNonFinite x [0, 1] = some r) :
    commandRule .sqrnd x = .error ⟨.nonfinite, regDetail r⟩ := by
  rw [commandRule, sqrndRule, readTwo_nonfinite h, intoX2_error]

/-- Settles O37: the reads go in order, and the rounded product is checked against a signed register. -/
theorem sqrndResult : Obligations.SqrndResult :=
  ⟨by decide +kernel, fun _ => ⟨fun h lo hi => exec_of_ok (sqrndRule_ok h lo hi),
    fun h hq => exec_of_error (sqrndRule_overflow h hq), fun _ h => exec_of_error (sqrndRule_nonfinite h)⟩⟩

/-! ## SQCLAMP -/

/-- The rule's bound, `floor((2^W - 1) / 2)`, is the largest signed number of W bits (44_scaler.md R242). -/
theorem clampBound_eq (w : ℕ) : clampBound w = if w = 0 then 0 else 2 ^ (w - 1) - 1 := by
  cases w with
  | zero => rfl
  | succ n =>
    have hpos := Nat.two_pow_pos n
    have half : (2 ^ (n + 1) - 1) / 2 = 2 ^ n - 1 := by omega
    rw [clampBound, half, if_neg n.succ_ne_zero, Nat.add_sub_cancel, Nat.cast_pred hpos, Nat.cast_pow, Nat.cast_ofNat]

theorem sqclampRule_ok {w : ℕ} {x : Regs} (hw : w ≤ 64) (h : firstNonFinite x [0, 1] = none) :
    commandRule (.sqclamp w) x = .ok { x with x2 := tc64 (clamp x.product (-clampBound w) (clampBound w)) } := by
  rw [commandRule, sqclampRule, decide_eq_true hw, require_true, rule_bind_ok, readTwo_finite h]
  rfl

theorem sqclampRule_contract {w : ℕ} (x : Regs) (hw : 64 < w) :
    commandRule (.sqclamp w) x = .error ⟨.contract, 0x80⟩ := by
  rw [commandRule, sqclampRule, decide_eq_false (not_le.mpr hw), require_false, rule_bind_error, intoX2_error]

theorem sqclampRule_nonfinite {w : ℕ} {x : Regs} {r : Fin 8} (hw : w ≤ 64) (h : firstNonFinite x [0, 1] = some r) :
    commandRule (.sqclamp w) x = .error ⟨.nonfinite, regDetail r⟩ := by
  rw [commandRule, sqclampRule, decide_eq_true hw, require_true, rule_bind_ok, readTwo_nonfinite h, intoX2_error]

/-- Settles O38: the width is checked before the reads, and the bound clamps the rounded product on both sides. -/
theorem sqclampResult : Obligations.SqclampResult := by
  refine ⟨fun w hw => decode_ofNat_width (i := .sqclamp w) hw rfl, fun w s => ⟨fun hw h => ?_,
    fun hw => exec_of_error (sqclampRule_contract s.x hw), fun hw _ h => exec_of_error (sqclampRule_nonfinite hw h)⟩⟩
  have hbound : -clampBound w ≤ clampBound w := neg_le_self (Int.natCast_nonneg _)
  rw [← clampBound_eq, ← clamp_eq_max_min _ _ _ hbound]
  exact exec_of_ok (sqclampRule_ok hw h)

/-! ## SDQ -/

/-- A finite nonzero scale leaves the rounding of the exact quotient. -/
theorem sdqRule_finite {x : Regs} (h : isFinite x.x1 = true) (h0 : f64Value x.x1 ≠ 0) :
    commandRule .sdq x = intoX2 x (rnd64 2 (i64 x.x0 / f64Value x.x1)) := by
  have hread : readF64 x 1 = .ok (f64Value x.x1) := readF64_finite h
  rw [commandRule, sdqRule, hread, rule_bind_ok, decide_eq_true h0, require_true, rule_bind_ok]

theorem sdqRule_ok {x : Regs} (h : isFinite x.x1 = true) (h0 : f64Value x.x1 ≠ 0)
    (hq : |(i64 x.x0 : ℚ) / f64Value x.x1| < rnd64Limit) :
    commandRule .sdq x = .ok { x with x2 := rnd64Bits (i64 x.x0 / f64Value x.x1) } := by
  rw [sdqRule_finite h h0, rnd64_inRange hq, intoX2_ok]

theorem sdqRule_fprange {x : Regs} (h : isFinite x.x1 = true) (h0 : f64Value x.x1 ≠ 0)
    (hq : rnd64Limit ≤ |(i64 x.x0 : ℚ) / f64Value x.x1|) : commandRule .sdq x = .error ⟨.fprange, 2⟩ := by
  rw [sdqRule_finite h h0, rnd64_outOfRange hq, intoX2_error]
  rfl

theorem sdqRule_zero {x : Regs} (h : isFinite x.x1 = true) (h0 : f64Value x.x1 = 0) :
    commandRule .sdq x = .error ⟨.divzero, 1⟩ := by
  have hread : readF64 x 1 = .ok (f64Value x.x1) := readF64_finite h
  rw [commandRule, sdqRule, hread, rule_bind_ok, decide_eq_false (not_not.mpr h0), require_false, rule_bind_error,
    intoX2_error]

theorem sdqRule_nonfinite {x : Regs} (h : isFinite x.x1 = false) : commandRule .sdq x = .error ⟨.nonfinite, 1⟩ := by
  have hread : readF64 x 1 = .error ⟨.nonfinite, 1⟩ := readF64_nonfinite h
  rw [commandRule, sdqRule, hread, rule_bind_error, intoX2_error]

/-- +0 and -0 are finite patterns of value 0 (44_scaler.md R243). -/
theorem finite_and_zero_of_zeroPattern {p : Word} (h : p = 0 ∨ p = 0x8000000000000000) :
    isFinite p = true ∧ f64Value p = 0 := by
  rcases h with rfl | rfl <;> decide +kernel

/-- Settles O39: the read, the check of the scale, of which only the two zeros fail, and the rounding come in
this order. -/
theorem sdqResult : Obligations.SdqResult := by
  unfold Obligations.SdqResult
  rw [← rnd64Limit_eq]
  exact ⟨by decide +kernel, fun _ => ⟨fun h h0 hq => exec_of_ok (sdqRule_ok h h0 hq),
    fun h h0 hq => exec_of_error (sdqRule_fprange h h0 hq),
    fun hz => (finite_and_zero_of_zeroPattern hz).elim fun h h0 => exec_of_error (sdqRule_zero h h0),
    fun _ => eq_of_f64Value_zero, fun h => exec_of_error (sdqRule_nonfinite h)⟩⟩

/-! ## SATTRUNC -/

theorem sattruncRule_ok {x : Regs} (h : isFinite x.x0 = true) :
    commandRule .sattrunc x = .ok { x with x2 := scaleTrunc (f64Value x.x0) x.x1.toNat } := by
  have hread : readF64 x 0 = .ok (f64Value x.x0) := readF64_finite h
  rw [commandRule, sattruncRule, hread]
  rfl

theorem sattruncRule_nonfinite {x : Regs} (h : isFinite x.x0 = false) :
    commandRule .sattrunc x = .error ⟨.nonfinite, 0⟩ := by
  have hread : readF64 x 0 = .error ⟨.nonfinite, 0⟩ := readF64_nonfinite h
  rw [commandRule, sattruncRule, hread, rule_bind_error, intoX2_error]

/-- Settles O40: no denominator is refused, and the truncation of the clamped product is a floor. -/
theorem sattruncResult : Obligations.SattruncResult := by
  refine ⟨by decide +kernel, fun s => ⟨fun h => ?_, fun h => exec_of_error (sattruncRule_nonfinite h)⟩⟩
  rw [exec_of_ok (sattruncRule_ok h), scaleTrunc_eq_floor]
  rfl

/-! ## Agreement with QUANT -/

/-- QUANT completes only where its DC value is that of an unsigned register (43_dct_quant.md R216). -/
theorem quantRule_eq_ok {x y : Regs} (h : quantRule x = .ok y) :
    0 ≤ x.quantDc ∧ x.quantDc < 2 ^ 64 ∧ y = x.withRecord := by
  cases hfin : firstNonFinite x [0, 1, 2, 3, 4, 5] with
  | some r => cases (quantRule_nonfinite hfin).symm.trans h
  | none =>
    by_cases hdc : 0 ≤ x.quantDc ∧ x.quantDc < 2 ^ 64
    · exact ⟨hdc.1, hdc.2, Except.ok.inj (h.symm.trans (quantRule_ok hfin hdc.1 hdc.2))⟩
    · cases (quantRule_overflow hfin (by omega)).symm.trans h

/-- A finite value in X0 and a finite scale in X1 are the operands of the scaler. -/
theorem firstNonFinite_two {x : Regs} (h0 : isFinite x.x0 = true) (h1 : isFinite x.x1 = true) :
    firstNonFinite x [0, 1] = none :=
  firstNonFinite_eq_none.mpr (List.forall_mem_cons.mpr ⟨h0, List.forall_mem_singleton.mpr h1⟩)

/-- The scale 511.0 makes the product QUANT's DC value (44_scaler.md R245). -/
theorem product_eq_quantDc {x y : Regs} (h0 : f64Value x.x0 = (dctForward y.quad).v1)
    (h1 : x.x1 = 0x407FF00000000000) : x.product = y.quantDc := by
  have hscale : f64Value 0x407FF00000000000 = dcScale := by decide +kernel
  rw [Regs.product, Regs.quantDc, h0, h1, hscale, mul_comm]

/-- The scale 50.0 and the width 5 make the clamped product QUANT's AC value (44_scaler.md R245). -/
theorem clamp_product_eq_quantAc {x : Regs} {c : ℚ} (h0 : f64Value x.x0 = c) (h1 : x.x1 = 0x4049000000000000) :
    clamp x.product (-clampBound 5) (clampBound 5) = quantAc c := by
  have hscale : f64Value 0x4049000000000000 = acScale := by decide +kernel
  rw [Regs.product, h0, h1, hscale, mul_comm]
  rfl

/-- Settles O41: 511.0 and 50.0 are QUANT's scales and SQCLAMP 5 has its AC bounds, so both round and clamp one
number. -/
theorem scalerAgreesWithQuantizer : Obligations.ScalerAgreesWithQuantizer := by
  rintro s t u p h hc hp rfl
  obtain ⟨y, hy, rfl⟩ := exec_counted h hc
  obtain ⟨lo, hi, rfl⟩ := quantRule_eq_ok hy
  refine ⟨fun hv hs h63 => ?_, fun hv hs => ?_⟩
  · have hq : u.x.product = s.x.quantDc := product_eq_quantDc hv hs
    have h63 : (tc64 s.x.quantDc).toNat < 2 ^ 63 := h63
    rw [tc64, BitVec.toNat_ofInt] at h63
    have hok := sqrndRule_ok (firstNonFinite_two hp (by rw [hs]; decide)) (by omega) (by omega)
    rw [exec_of_ok hok, hq]
    rfl
  · have hok := sqclampRule_ok (w := 5) (by decide) (firstNonFinite_two hp (by rw [hs]; decide))
    rw [exec_of_ok hok, clamp_product_eq_quantAc hv hs]
    rfl

end Sys2Proof.Machine
end

section
/-! PROOF. The command engine over whole cycles: a command in flight counts down, its last cycle completes it, and a write
to CMD or a data register before that discards it (45_control.md R260 to R265; 60_exceptions.md R277, R280). -/

namespace Sys2Proof.Machine

/-! ## The completing edge -/

/-- What a completion leaves: nothing in flight, results counted or a fault latched (45_control.md R262, R263;
60_exceptions.md R280). -/
theorem finish_frame {r : Rule Regs} {s t : State} (h : finish r s = .next t) :
    t.inflight = none ∧ t.fie = s.fie ∧ t.cmdLast = s.cmdLast ∧ t.port = s.port ∧ t.hRdata = s.hRdata ∧
    t.instNo = s.instNo ∧
    ((t.cmdCnt = s.cmdCnt + 1 ∧ t.fault = s.fault ∧ t.finfo = s.finfo) ∨
      (t.cmdCnt = s.cmdCnt ∧ t.x = s.x ∧ t.fault ≠ 0 ∧ t.finfo.cmdWord = s.commandHalf)) := by
  rcases finish_cases h with ⟨x, -, rfl⟩ | ⟨f, -, rfl⟩
  · exact ⟨rfl, rfl, rfl, rfl, rfl, rfl, .inl ⟨rfl, rfl, rfl⟩⟩
  · exact ⟨rfl, rfl, rfl, rfl, rfl, rfl, .inr ⟨rfl, rfl, code_ne_zero f.kind, rfl⟩⟩

/-- Settles O15: executing a command is completing with its rule's answer. -/
theorem executionFrame : Obligations.ExecutionFrame := fun i s _ h => finish_frame ((exec_eq_finish i s).symm.trans h)

theorem completeWord_of_ok {run : Executor} {cmd : Word} {i : Instr} (s : State) (h : decode cmd = .ok i) :
    completeWord run cmd s = run i s := by
  rw [completeWord, h]

theorem completeWord_of_error {run : Executor} {cmd : Word} {e : DecodeError} (s : State) (h : decode cmd = .error e) :
    completeWord run cmd s = .next (faultedWith 1 e.detail s) := by
  rw [completeWord, h]
  rfl

/-- Settles O5: the edge executes the command, which answers a state for the access to act on. -/
theorem stepRunsDecodedCommand : Obligations.StepRunsDecodedCommand := by
  intro s cmd left i hi hleft hr hd
  obtain ⟨t, ht⟩ := exec_total i (afterCycle s)
  have he : engineEdge exec (afterCycle s) = .next t := by
    rw [engineEdge_complete (s := afterCycle s) hi hleft, completeWord_of_ok _ hd, ht]
  rw [ht]
  exact step_running hr he

/-! ## Counting down to the completion -/

theorem step_counts {s : State} {cmd : Word} {n : ℕ} (hi : s.inflight = some ⟨cmd, n + 2⟩)
    (hq : s.nextPins.quiet = true) : step s = .next { afterCycle s with inflight := some ⟨cmd, n + 1⟩ } :=
  step_quiet hq (engineEdge_count (s := afterCycle s) hi)

/-- Settles O6: a quiet cycle is the engine's edge alone, which counts down or is idle. -/
theorem inFlightCountsDown : Obligations.InFlightCountsDown := fun s hq =>
  ⟨fun _ _ hi => step_counts hi hq, fun hi => step_quiet hq (engineEdge_idle (s := afterCycle s) hi)⟩

/-- The pins idle after the last listed cycle (log 1), so a list of quiet cycles is quiet for ever. -/
theorem nextPins_quiet {s : State} (h : ∀ c ∈ s.port, c.quiet = true) : s.nextPins.quiet = true := by
  unfold State.nextPins
  cases hp : s.port with
  | nil => rfl
  | cons c rest => exact h c (by simp [hp])

/-- The state in which `cmd` completes at the end of the next `k` cycles: the cycles are gone and nothing else changed. -/
def State.atCompletion (s : State) (cmd : Word) (k : ℕ) : State :=
  { s with inflight := some ⟨cmd, 1⟩, port := s.port.drop k, hRdata := none }

theorem atCompletion_one {s : State} {cmd : Word} (hi : s.inflight = some ⟨cmd, 1⟩) :
    s.atCompletion cmd 1 = afterCycle s := by
  rw [State.atCompletion, afterCycle, List.drop_one, ← hi]

theorem atCompletion_countDown (s : State) (cmd : Word) (n k : ℕ) :
    State.atCompletion { afterCycle s with inflight := some ⟨cmd, n⟩ } cmd k = s.atCompletion cmd (k + 1) := by
  simp [State.atCompletion, afterCycle]

theorem run_of_step {s t : State} (k : ℕ) (h : step s = .next t) :
    Host.Core.run core (k + 1) s = Host.Core.run core k t := by
  simp only [Host.Core.run, show core.step s = .next t from h]

/-- Quiet cycles take a command in flight to the completion of its word at its last one (45_control.md R261). -/
theorem run_completes {s : State} {cmd : Word} {n : ℕ} (hi : s.inflight = some ⟨cmd, n + 1⟩)
    (hq : ∀ c ∈ s.port, c.quiet = true) :
    Host.Core.run core (n + 1) s = completeWord exec cmd (s.atCompletion cmd (n + 1)) := by
  induction n generalizing s with
  | zero =>
    obtain ⟨t, ht⟩ := completeWord_total cmd (afterCycle s)
    have he : engineEdge exec (afterCycle s) = .next t := (engineEdge_complete (s := afterCycle s) hi le_rfl).trans ht
    rw [run_of_step 0 (step_quiet (nextPins_quiet hq) he), atCompletion_one hi, ht]
    rfl
  | succ n ih =>
    rw [run_of_step (n + 1) (step_counts hi (nextPins_quiet hq)), ih rfl fun c hc => hq c (List.mem_of_mem_tail hc),
      atCompletion_countDown]

/-- Settles O7: the run ends in the completion of the word, which decode makes a command or an ILLEGAL. -/
theorem inFlightCommandCompletes : Obligations.InFlightCommandCompletes := by
  intro s cmd n hi hq last
  rw [run_completes hi hq]
  exact ⟨fun i hd => completeWord_of_ok last hd, fun e hd => completeWord_of_error last hd⟩

/-! ## Writes while busy -/

/-- A write to CMD or a data register discards the command in flight and has no other effect (60_exceptions.md R277). -/
theorem regWrite_guarded_busy {s : State} {idx : Byte} (v : Word) (f : InFlight) (hg : guardedIndex idx = true)
    (h0 : s.fault = 0) : regWrite idx v { s with inflight := some f } =
      { s with fault := 7, finfo := ⟨lowHalf f.cmd, idx⟩, inflight := none } := by
  rcases regWrite_cases idx v { s with inflight := some f } with ⟨i, -, e⟩ | ⟨-, rfl, -⟩ | ⟨-, rfl, e⟩ | ⟨hd, -, h3, -⟩
  · rw [e]
    rfl
  · exact absurd hg (by decide)
  · rw [e, commandWrite, if_neg (by simp [State.faulted, h0])]
    rfl
  · have hdata : idx.toNat / 8 ≠ 1 := fun h => by simp [dataIndex, h] at hd
    rw [guardedIndex_eq_false_iff.mpr ⟨h3, by omega⟩] at hg
    cases hg

/-- Settles O47: the write acts on what the engine's edge leaves: a fault, a command still in flight, or an idle block. -/
theorem commandWriteOutcome : Obligations.CommandWriteOutcome := by
  intro s v hwrite accepted
  refine ⟨fun hi hf => ?_, fun cmd n h0 hi => ?_, fun h0 hi => ?_, fun cmd t hi he => ?_⟩
  · rw [step_write hwrite (engineEdge_idle hi), regWrite_cmd_faulted (s := beginCycle s) v hf, afterCycle_eq]
  · rw [step_write hwrite (engineEdge_count (s := beginCycle s) hi), regWrite_guarded_busy (s := beginCycle s) v _ rfl h0]
    rw [faultedWith, commandHalf_inflight (afterCycle s) _ hi]
    rfl
  · rw [step_write hwrite (engineEdge_idle hi), regWrite_cmd_accepted (s := beginCycle s) v hi h0]
    rfl
  · have hnone : t.inflight = none := by
      rw [engineEdge_complete (s := afterCycle s) hi le_rfl, completeWord_eq_finish] at he
      exact (finish_frame he).1
    rw [step_write hwrite he]
    exact ⟨fun h0 => congrArg _ (regWrite_cmd_accepted v hnone h0), fun hf => congrArg _ (regWrite_cmd_faulted v hf)⟩

/-- Settles O48: the access acts on the command counted down, which only a guarded write or a soft reset discards. -/
theorem busyWriteAborts : Obligations.BusyWriteAborts := by
  intro s t cmd n hi h0 hr hs
  have hcount := engineEdge_count (run := exec) (s := afterCycle s) hi
  rw [step_running hr hcount] at hs
  cases hs
  refine ⟨fun hp hw hg => ?_, fun hp hw hg h1 => ?_, fun hp hw h1 => ?_, fun hp hw => ?_⟩
  · rw [portAccess_write _ hp hw, regWrite_guarded_busy (s := afterCycle s) _ _ hg h0]
    rfl
  · rw [portAccess_write _ hp hw, regWrite_unguarded _ _ h1 hg]
  · rw [portAccess_write _ hp hw, h1, regWrite_ctrl]
    cases hsoft : s.nextPins.hWdata.getLsbD 1 with
    | true =>
      rw [ctrlWrite_softReset _ hsoft, resetRegisters_of_noRead rfl]
      rfl
    | false =>
      rw [ctrlWrite_fie _ hsoft]
      rfl
  · rw [portAccess_read _ hp hw]
    exact ⟨rfl, h0⟩

/-! ## NOP -/

/-- Settles O17: a word of NOP's OPC without a reserved bit is its W and L, and NOP takes neither. -/
theorem nopCompletes : Obligations.NopCompletes := by
  refine ⟨fun s => rfl, fun cmd => ⟨fun h => ?_, fun h => ?_⟩, fun cmd hopc hne => ?_⟩
  · exact (encodeOfDecode cmd .nop h).2.symm
  · subst h
    exact decodeOfEncode .nop rfl
  · obtain ⟨row, hrow, hnoW, hnoL⟩ : ∃ row, findRow 0 = some row ∧ row.takesW = false ∧ row.takesL = false :=
      ⟨_, rfl, rfl, rfl⟩
    rw [← show opcField cmd = 0 from hopc] at hrow
    cases hr : reservedBitSet cmd with
    | true => exact .inl (decode_reservedBit hrow hr)
    | false =>
      refine .inr (decode_unusedField hrow hr ?_)
      by_contra hunused
      have hw : wField cmd = 0 := by_contra fun h => hunused (.inl ⟨h, hnoW⟩)
      have hl : lField cmd = 0 := by_contra fun h => hunused (.inr ⟨h, hnoL⟩)
      exact hne (by rw [eq_ofNat_fields hr, hw, hl, show opcField cmd = 0 from hopc]; rfl)

end Sys2Proof.Machine
end

section
/-! PROOF. Exceptions: the faults a command latches, what a cycle can change while a fault is held, and the interrupt
(60_exceptions.md R272 to R278, R282, R285). -/

namespace Sys2Proof.Machine

/-! ## The fault a command latches -/

/-- Settles O16: a command completes with its rule's results, or latches what its rule raised. -/
theorem faultsByCommand : Obligations.FaultsByCommand := by
  intro i s t h
  rcases exec_cases h with ⟨x, -, rfl⟩ | ⟨f, hf, rfl⟩
  · exact .inl rfl
  · exact .inr (commandRule_raises i s.x f hf)

/-! ## A cycle while a fault is held -/

/-- While a fault is held, a write reaches one data register or FIE, and nothing else (60_exceptions.md R282). -/
theorem regWrite_faulted {s : State} {idx : Byte} {v : Word} (hf : s.fault ≠ 0) (hi : s.inflight = none)
    (h : ¬(idx = 0x01 ∧ v.getLsbD 1 = true)) :
    ∃ x, regWrite idx v s = { s with x := x, fie := if idx = 0x01 then v.getLsbD 0 else s.fie } ∧
      ∀ i : Fin 8, x.get i = if idx.toNat = 8 + i.val then v else s.x.get i := by
  by_cases hd : 8 ≤ idx.toNat ∧ idx.toNat ≤ 15
  · obtain ⟨k, hk⟩ : ∃ k : Fin 8, idx.toNat = 8 + k.val := ⟨⟨idx.toNat - 8, by omega⟩, by simp; omega⟩
    refine ⟨s.x.set k v, ?_, fun i => ?_⟩
    · rw [regWrite_data_idle v hi hk, if_neg (by rintro rfl; exact absurd hd (by decide))]
    · rw [hk]
      by_cases hik : i = k
      · rw [hik, if_pos rfl, get_set_same]
      · rw [if_neg (by omega), get_set_other _ _ hik]
  · have noData (i : Fin 8) : s.x.get i = if idx.toNat = 8 + i.val then v else s.x.get i := by rw [if_neg (by omega)]
    refine ⟨s.x, ?_, noData⟩
    by_cases h1 : idx = 0x01
    · rw [if_pos h1, h1, regWrite_ctrl, ctrlWrite_fie s (by simpa [h1] using h)]
    rw [if_neg h1]
    by_cases h3 : idx = 0x03
    · rw [h3, regWrite_cmd_faulted v hf]
    · exact regWrite_unguarded v s h1 (guardedIndex_eq_false_iff.mpr ⟨h3, by omega⟩)

/-- While a fault is held, the access of a cycle reaches one data register, FIE or h_rdata, unless it is a soft reset. -/
theorem portAccess_faulted {s : State} {c : PortCycle} (hf : s.fault ≠ 0) (hi : s.inflight = none)
    (h : ¬c.SoftReset) :
    ∃ x r, portAccess c s = { s with
        x := x, hRdata := r
        fie := if (c.performs = true ∧ c.hWe = true) ∧ c.hIdx = 0x01 then c.hWdata.getLsbD 0 else s.fie } ∧
      (∀ i : Fin 8, x.get i =
        if (c.performs = true ∧ c.hWe = true) ∧ c.hIdx.toNat = 8 + i.val then c.hWdata else s.x.get i) ∧
      ∀ idx, c.reads idx = true → r = some (regRead idx s) := by
  rcases portAccess_cases c s with ⟨hp, hw, e⟩ | ⟨hp, hw, e⟩ | ⟨hp, e⟩
  · obtain ⟨x, hx, hget⟩ := regWrite_faulted hf hi fun hv => h ⟨hp, hw, hv⟩
    refine ⟨x, s.hRdata, ?_, fun i => ?_, fun idx hr => ?_⟩
    · simp [e, hx, hp, hw]
    · simp [hget, hp, hw]
    · simp [PortCycle.reads_iff, hw] at hr
  · refine ⟨s.x, some (regRead c.hIdx s), ?_, fun i => ?_, fun idx hr => ?_⟩
    · simp [e, hw]
    · simp [hw]
    · rw [(PortCycle.reads_iff.mp hr).2.2]
  · refine ⟨s.x, s.hRdata, ?_, fun i => ?_, fun idx hr => ?_⟩
    · simp [e, hp]
    · simp [hp]
    · simp [PortCycle.reads_iff, hp] at hr

/-- Settles O54: the engine is idle, so the cycle is its access, to a state that differs from `s` in the pins alone. -/
theorem faultedStateHolds : Obligations.FaultedStateHolds := by
  intro s t hf hi hr hs writes soft
  have hsoft : soft ↔ s.nextPins.SoftReset := and_assoc
  have hstep := step_running hr (engineEdge_idle (s := beginCycle s) hi)
  obtain rfl : portAccess s.nextPins (beginCycle s) = t := Host.Outcome.next.inj (hstep.symm.trans hs)
  refine ⟨fun h => ?_, fun h => ?_⟩
  · exact (portAccess_softReset _ (hsoft.mp h)).trans (resetRegisters_of_noRead rfl)
  · obtain ⟨x, r, e, hx, hread⟩ := portAccess_faulted (s := beginCycle s) hf hi (h ∘ hsoft.mpr)
    rw [e]
    exact ⟨rfl, rfl, rfl, rfl, hi, hx, rfl, hread⟩

/-! ## The interrupt -/

theorem irq_of_fault {s : State} (hf : s.fault ≠ 0) : s.irq = s.fie := by
  rw [State.irq, State.faulted, bne_iff_ne.mpr hf, Bool.and_true]

theorem irq_of_noFault {s : State} (h0 : s.fault = 0) : s.irq = false := by
  rw [State.irq, State.faulted, h0, bne_self_eq_false, Bool.and_false]

/-- Settles O57: such a write sets FIE alone, and irq is FIE while a fault is held. -/
theorem interruptFollowsEnable : Obligations.InterruptFollowsEnable := by
  refine fun s => ⟨fun hf => ?_, irq_of_noFault⟩
  rw [regWrite_ctrl, regWrite_ctrl, ctrlWrite_fie s (by decide), ctrlWrite_fie s (by decide)]
  exact ⟨irq_of_fault hf, rfl, irq_of_fault hf, rfl⟩

end Sys2Proof.Machine
end

section
/-! PROOF. Resets (70_reset_and_hazards.md R310, R311): the two sources and the start leave one state, but for the pins and
the instance's number, and the invariant holds in it. -/

namespace Sys2Proof.Machine

theorem get_zero (i : Fin 8) : Regs.zero.get i = 0 := by
  fin_cases i <;> rfl

/-- Nothing is held in FAULT and nothing is in flight, so STATUS shows no bit. -/
theorem statusWord_resetRegisters (s : State) : (resetRegisters s).statusWord = 0 := by
  simp [State.statusWord, State.busy, State.irq, boolWord]

theorem finfoWord_resetRegisters (s : State) : (resetRegisters s).finfoWord = 0 := by
  simp [State.finfoWord]

/-- After a reset a read sees ID at index 0, and 0 at every other index. -/
theorem regRead_resetRegisters (idx : Byte) (s : State) :
    regRead idx (resetRegisters s) = if idx = 0 then idValue else 0 := by
  cases hd : dataIndex idx with
  | some i =>
    obtain ⟨hlo, -⟩ := dataIndex_range hd
    have hne : idx ≠ 0 := by bv_omega
    rw [if_neg hne, regRead, hd]
    exact get_zero i
  | none =>
    rw [regRead, hd]
    split_ifs
    · rfl
    · rfl
    · exact statusWord_resetRegisters s
    · rfl
    · exact finfoWord_resetRegisters s
    · rfl
    · rfl

/-- The start, a cycle of hardware reset and a soft reset are each a reset of some state's registers. -/
theorem eq_resetRegisters_of_reset {s t : State}
    (h : t = State.reset ∨ (s.nextPins.rstN = false ∧ step s = .next t) ∨
      ∃ v : Word, v.getLsbD 1 = true ∧ t = regWrite 0x01 v s) : ∃ u, t = resetRegisters u := by
  rcases h with rfl | ⟨hr, hs⟩ | ⟨v, hv, rfl⟩
  · exact ⟨State.reset, rfl⟩
  · exact ⟨beginCycle s, Host.Outcome.next.inj (hs.symm.trans (step_reset hr))⟩
  · exact ⟨s, ctrlWrite_softReset s hv⟩

/-- Settles O10: each way to a reset state is a reset of registers, whose fields and reads are those of the table. -/
theorem resetValues : Obligations.ResetValues := by
  intro s t h
  obtain ⟨u, rfl⟩ := eq_resetRegisters_of_reset h
  refine ⟨rfl, rfl, rfl, rfl, rfl, rfl, rfl, rfl, rfl, fun idx => regRead_resetRegisters idx u, fun hnone free => ?_⟩
  rw [State.hRdataPin, hnone, Option.getD_none]

/-- Settles O11: the reset state is a reset of its own registers. -/
theorem invariantAtReset : Obligations.InvariantAtReset := resetRegisters_inv State.reset

end Sys2Proof.Machine
end
